-- ==== Sys2Proof/Word.lean ====
section
/-! DEFINITION. The bit vectors of the hardware: the 32-bit word and the fields a word is cut into
(spec/00_scope.md R8, R13, R15; spec/30_encoding.md R57 to R60). -/

namespace Sys2Proof

/-- A 32-bit word: an instruction word, a general register, a data-memory cell, the PC (R8, R13).
A register or cell holds the `s32` `w.toInt`; an instruction word and the PC are the `u32` `w.toNat` (R15). -/
abbrev Word := BitVec 32

/-- A 5-bit register index, the content of a `rs`, `rt` or `rd` field (R21, R64). -/
abbrev RegIdx := BitVec 5

/-- The 16-bit immediate field `W[15:0]` (R58, R61). -/
abbrev Imm16 := BitVec 16

/-- The 26-bit target field `W[25:0]` of the J-format (R59). -/
abbrev Target26 := BitVec 26

/-- A piece of assembler source text: a sequence of characters (R80). -/
abbrev Text := List Char

end Sys2Proof
end

