-- ==== Sys2Proof/Config.lean ====
section
/-! DEFINITION. What an implementation fixes: the parameters of spec/00_scope.md R8 (a model takes them as
arguments) and the fixed initial values of the same table. The parameters stand in `State` as plain data, so
every statement about a state holds for every value of them (notes/assumptions/1.md). -/

namespace Sys2Proof

/-- `IMM_OVERFLOW` (R8; spec/93_implementation_defined.md U1): what the encoder does with an immediate or a branch
offset outside -32768..32767. -/
inductive ImmOverflow where
  /-- Keep the low 16 bits and raise nothing (the default, R115). -/
  | truncate
  /-- Reject the line with `ParseError` (the conservative alternative, U1). -/
  | refuse
deriving DecidableEq, Repr

/-- The parameters of the hardware (R8). -/
structure Params where
  /-- `MEM_WORDS`: the number of data-memory cells. -/
  memWords : Nat
  /-- `IMEM_MAX`: the largest program the instruction memory holds, in words. -/
  imemMax : Nat
  /-- `IMM_OVERFLOW`. -/
  immOverflow : ImmOverflow
deriving DecidableEq, Repr

/-- The default of each parameter (R8). -/
def Params.default : Params := ⟨256, 2 ^ 26, .truncate⟩

/-- The allowed range of each parameter (R8): 1 <= MEM_WORDS <= 2^31 - 2^15 and IMEM_MAX <= 2^31. -/
abbrev Params.Valid (p : Params) : Prop :=
  1 ≤ p.memWords ∧ p.memWords ≤ 2 ^ 31 - 2 ^ 15 ∧ p.imemMax ≤ 2 ^ 31

/-- `REG_INIT` (R8, R22): every register at execution start. -/
def Config.regInit : Word := 0#32

/-- `MEM_INIT` (R8, decision D9): every unseeded data-memory cell at execution start. -/
def Config.memInit : Word := 0#32

/-- `PC_INIT` (R8, decision D8): the PC at execution start. -/
def Config.pcInit : Word := 0#32

end Sys2Proof
end

