-- ==== Sys2Proof/Syntax.lean ====
section
/-! DEFINITION. The instructions: one constructor for each of the twelve rows of spec/opcode_table.json
(spec/30_encoding.md R65). An instruction is a decoded word: it carries every field its format gives it, in the
order of the assembler text (R69), then the ignored `shamt` of the R-format (R66). -/

namespace Sys2Proof

/-- The twelve instructions of the closed instruction-set table (R2, R65). -/
inductive Instr where
  /-- R139 -/
  | add (rd rs rt : RegIdx) (shamt : BitVec 5)
  /-- R140 -/
  | sub (rd rs rt : RegIdx) (shamt : BitVec 5)
  /-- R141 -/
  | and (rd rs rt : RegIdx) (shamt : BitVec 5)
  /-- R142 -/
  | or (rd rs rt : RegIdx) (shamt : BitVec 5)
  /-- R143 -/
  | slt (rd rs rt : RegIdx) (shamt : BitVec 5)
  /-- R144: encoded, and its effect in the engine is to raise `UnsupportedOperation` -/
  | nor (rd rs rt : RegIdx) (shamt : BitVec 5)
  /-- R147 -/
  | addi (rt rs : RegIdx) (imm : Imm16)
  /-- R148 -/
  | lw (rt rs : RegIdx) (imm : Imm16)
  /-- R149 -/
  | sw (rt rs : RegIdx) (imm : Imm16)
  /-- R153 -/
  | beq (rt rs : RegIdx) (imm : Imm16)
  /-- R155: encoded, and its effect in the engine is to raise `UnsupportedOperation` -/
  | bne (rt rs : RegIdx) (imm : Imm16)
  /-- R156: encoded, and its effect in the engine is to raise `UnsupportedOperation` -/
  | j (target : Target26)
deriving DecidableEq, Repr

end Sys2Proof
end

