-- ==== Sys2Proof/WellFormed.lean ====
section
/-! DEFINITION. Well-formed instructions: those whose word the hardware's encoder can emit. Every field has the
width of its type, so the one check left is that `shamt` is zero in the R-format: "always zero — shift-amount
operands are not supported" (spec/30_encoding.md R57, R64). The engine also executes the words with another `shamt`
(R66, R68), so no meaning and no statement about the engine assumes well-formedness. -/

namespace Sys2Proof

/-- The encoder can emit this instruction's word: an R-format instruction has `shamt` 0 (R57, R64, R68). -/
def Instr.wf : Instr → Bool
  | .add _ _ _ shamt => shamt == 0#5
  | .sub _ _ _ shamt => shamt == 0#5
  | .and _ _ _ shamt => shamt == 0#5
  | .or _ _ _ shamt => shamt == 0#5
  | .slt _ _ _ shamt => shamt == 0#5
  | .nor _ _ _ shamt => shamt == 0#5
  | .addi _ _ _ => true
  | .lw _ _ _ => true
  | .sw _ _ _ => true
  | .beq _ _ _ => true
  | .bne _ _ _ => true
  | .j _ => true

end Sys2Proof
end

