-- ==== Sys2Proof/Decode.lean ====
section
/-! DEFINITION. The instruction-set table (spec/30_encoding.md R56, R65), the positional field extraction (R60), the
decoder (R66, R67) and the word encoder (R57 to R59). The decoder is total: a word of no row is rejected by name, and
what the engine does with it is Machine/Step.lean's affair. -/

namespace Sys2Proof

/-- The instruction formats (R56). -/
inductive Format where
  | R | I | J
deriving DecidableEq, Repr

/-- The R-format mnemonics (R65). -/
inductive ROp where
  | add | sub | and | or | slt | nor
deriving DecidableEq, Repr

/-- The mnemonics of the general I-format subset (R65, R69). -/
inductive IOp where
  | addi | lw | sw
deriving DecidableEq, Repr

/-- The mnemonics of the branch I-format subset (R65, R69). -/
inductive BOp where
  | beq | bne
deriving DecidableEq, Repr

/-- The twelve mnemonics, grouped by the shape of their operands (R65, R69, R100). -/
inductive Mnemonic where
  | r (op : ROp)
  | i (op : IOp)
  | b (op : BOp)
  | j
deriving DecidableEq, Repr

/-- The `format` column of R65: every mnemonic maps to exactly one format (R56). -/
def Mnemonic.format : Mnemonic → Format
  | .r _ => .R
  | .i _ => .I
  | .b _ => .I
  | .j => .J

/-- The `funct` column of R65 (39 for `nor` is from general knowledge: notes/assumptions/3.md). -/
def ROp.funct : ROp → BitVec 6
  | .add => 32#6
  | .sub => 34#6
  | .and => 36#6
  | .or => 37#6
  | .slt => 42#6
  | .nor => 39#6

/-- The `opcode` column of R65 for `addi`, `lw`, `sw`. -/
def IOp.opcode : IOp → BitVec 6
  | .addi => 8#6
  | .lw => 35#6
  | .sw => 43#6

/-- The `opcode` column of R65 for `beq`, `bne` (5 for `bne` is from general knowledge: notes/assumptions/3.md). -/
def BOp.opcode : BOp → BitVec 6
  | .beq => 4#6
  | .bne => 5#6

/-- The `opcode` column of R65 (2 for `j` is from general knowledge: notes/assumptions/3.md). -/
def Mnemonic.opcode : Mnemonic → BitVec 6
  | .r _ => 0#6
  | .i op => op.opcode
  | .b op => op.opcode
  | .j => 2#6

/-- The optional `funct` column of R65: the R-format mnemonics have one (R56). -/
def Mnemonic.funct : Mnemonic → Option (BitVec 6)
  | .r op => some op.funct
  | .i _ => none
  | .b _ => none
  | .j => none

/-- Every mnemonic of the closed table, in the table's order (R65). -/
def Mnemonic.all : List Mnemonic :=
  [.r .add, .r .sub, .r .and, .r .or, .r .slt, .r .nor, .i .addi, .i .lw, .i .sw, .b .beq, .b .bne, .j]

/-- The row of the table an instruction belongs to. -/
def Instr.mnemonic : Instr → Mnemonic
  | .add _ _ _ _ => .r .add
  | .sub _ _ _ _ => .r .sub
  | .and _ _ _ _ => .r .and
  | .or _ _ _ _ => .r .or
  | .slt _ _ _ _ => .r .slt
  | .nor _ _ _ _ => .r .nor
  | .addi _ _ _ => .i .addi
  | .lw _ _ _ => .i .lw
  | .sw _ _ _ => .i .sw
  | .beq _ _ _ => .b .beq
  | .bne _ _ _ => .b .bne
  | .j _ => .j

/-- The seven fields that Decode extracts from every word (R60). -/
structure Fields where
  opcode : BitVec 6
  rs : RegIdx
  rt : RegIdx
  rd : RegIdx
  shamt : BitVec 5
  funct : BitVec 6
  imm : Imm16
deriving DecidableEq, Repr

/-- `W[31:26]` (R60). -/
def opcodeOf (w : Word) : BitVec 6 := w.extractLsb' 26 6

/-- `W[25:21]` (R60). -/
def rsOf (w : Word) : RegIdx := w.extractLsb' 21 5

/-- `W[20:16]` (R60). -/
def rtOf (w : Word) : RegIdx := w.extractLsb' 16 5

/-- `W[15:11]` (R60). -/
def rdOf (w : Word) : RegIdx := w.extractLsb' 11 5

/-- `W[10:6]` (R60). -/
def shamtOf (w : Word) : BitVec 5 := w.extractLsb' 6 5

/-- `W[5:0]` (R60). -/
def functOf (w : Word) : BitVec 6 := w.extractLsb' 0 6

/-- `W[15:0]` (R60). -/
def immOf (w : Word) : Imm16 := w.extractLsb' 0 16

/-- `W[25:0]` (R59): no field of the decoder of R60; only the `j` row carries it. -/
def targetOf (w : Word) : Target26 := w.extractLsb' 0 26

/-- Positional extraction of all seven fields, from every word, with no validation (R60, R125). -/
def Fields.ofWord (w : Word) : Fields :=
  ⟨opcodeOf w, rsOf w, rtOf w, rdOf w, shamtOf w, functOf w, immOf w⟩

/-- Why a word belongs to no row of the table (R67). -/
inductive DecodeError where
  /-- Opcode 0 with a `funct` of no R-format row. -/
  | unknownFunct (funct : BitVec 6)
  /-- An opcode of no row. -/
  | unknownOpcode (opcode : BitVec 6)
deriving DecidableEq, Repr

/-- The second level of dispatch, on `funct` for opcode 0 (R66). -/
def decodeR (w : Word) : Except DecodeError Instr :=
  if functOf w = ROp.add.funct then .ok (.add (rdOf w) (rsOf w) (rtOf w) (shamtOf w))
  else if functOf w = ROp.sub.funct then .ok (.sub (rdOf w) (rsOf w) (rtOf w) (shamtOf w))
  else if functOf w = ROp.and.funct then .ok (.and (rdOf w) (rsOf w) (rtOf w) (shamtOf w))
  else if functOf w = ROp.or.funct then .ok (.or (rdOf w) (rsOf w) (rtOf w) (shamtOf w))
  else if functOf w = ROp.slt.funct then .ok (.slt (rdOf w) (rsOf w) (rtOf w) (shamtOf w))
  else if functOf w = ROp.nor.funct then .ok (.nor (rdOf w) (rsOf w) (rtOf w) (shamtOf w))
  else .error (.unknownFunct (functOf w))

/-- The row a word belongs to, with its fields: "first on opcode, then (for opcode 0) on funct" (R66).
Total: a word of no row is rejected by name (R67). -/
def decode (w : Word) : Except DecodeError Instr :=
  if opcodeOf w = 0#6 then decodeR w
  else if opcodeOf w = IOp.addi.opcode then .ok (.addi (rtOf w) (rsOf w) (immOf w))
  else if opcodeOf w = IOp.lw.opcode then .ok (.lw (rtOf w) (rsOf w) (immOf w))
  else if opcodeOf w = IOp.sw.opcode then .ok (.sw (rtOf w) (rsOf w) (immOf w))
  else if opcodeOf w = BOp.beq.opcode then .ok (.beq (rtOf w) (rsOf w) (immOf w))
  else if opcodeOf w = BOp.bne.opcode then .ok (.bne (rtOf w) (rsOf w) (immOf w))
  else if opcodeOf w = Mnemonic.j.opcode then .ok (.j (targetOf w))
  else .error (.unknownOpcode (opcodeOf w))

/-- R-format: opcode(6) · rs(5) · rt(5) · rd(5) · shamt(5) · funct(6), with opcode 0 (R57, R14). -/
def packR (funct : BitVec 6) (rd rs rt : RegIdx) (shamt : BitVec 5) : Word :=
  0#6 ++ rs ++ rt ++ rd ++ shamt ++ funct

/-- I-format: opcode(6) · rs(5) · rt(5) · imm(16) (R58, R14). -/
def packI (opcode : BitVec 6) (rt rs : RegIdx) (imm : Imm16) : Word :=
  opcode ++ rs ++ rt ++ imm

/-- J-format: opcode(6) · target(26) (R59, R14). -/
def packJ (opcode : BitVec 6) (target : Target26) : Word :=
  opcode ++ target

/-- The word of an instruction (R57 to R59, R65). -/
def encode : Instr → Word
  | .add rd rs rt shamt => packR ROp.add.funct rd rs rt shamt
  | .sub rd rs rt shamt => packR ROp.sub.funct rd rs rt shamt
  | .and rd rs rt shamt => packR ROp.and.funct rd rs rt shamt
  | .or rd rs rt shamt => packR ROp.or.funct rd rs rt shamt
  | .slt rd rs rt shamt => packR ROp.slt.funct rd rs rt shamt
  | .nor rd rs rt shamt => packR ROp.nor.funct rd rs rt shamt
  | .addi rt rs imm => packI IOp.addi.opcode rt rs imm
  | .lw rt rs imm => packI IOp.lw.opcode rt rs imm
  | .sw rt rs imm => packI IOp.sw.opcode rt rs imm
  | .beq rt rs imm => packI BOp.beq.opcode rt rs imm
  | .bne rt rs imm => packI BOp.bne.opcode rt rs imm
  | .j target => packJ Mnemonic.j.opcode target

/-- The mask of a row: the bits that select it (R66; the `mask` column of spec/opcode_table.json). -/
def Mnemonic.mask : Mnemonic → Word
  | .r _ => 0xFC00003F#32
  | .i _ => 0xFC000000#32
  | .b _ => 0xFC000000#32
  | .j => 0xFC000000#32

/-- The value of the masked bits that selects a row (R66; the `match` column of spec/opcode_table.json). -/
def Mnemonic.pattern : Mnemonic → Word
  | .r .add => 0x00000020#32
  | .r .sub => 0x00000022#32
  | .r .and => 0x00000024#32
  | .r .or => 0x00000025#32
  | .r .slt => 0x0000002A#32
  | .r .nor => 0x00000027#32
  | .i .addi => 0x20000000#32
  | .i .lw => 0x8C000000#32
  | .i .sw => 0xAC000000#32
  | .b .beq => 0x10000000#32
  | .b .bne => 0x14000000#32
  | .j => 0x08000000#32

/-- The instruction word whose low `nbits` bits are those of `w` and whose other bits are 0. Every instruction is one
32-bit word (R55), so the table's numbering is the word's. -/
def tableWord (nbits w : Nat) : Word := BitVec.ofNat 32 (w % 2 ^ nbits)

/-- The instruction the decoder reads from an instruction whose bits are `w`. -/
def decodeTableWord (nbits w : Nat) : Option Instr := (decode (tableWord nbits w)).toOption

end Sys2Proof
end

