-- ==== Sys2Proof/Machine/State.lean ====
section
/-! DEFINITION. The state of the machine (spec/10_state.md R20: three run-time objects, the load-time objects and
`STATUS`), the reasons a step can stop, and the state after reset (R38). Plain data throughout. -/

namespace Sys2Proof.Machine

/-- The six errors of the hardware: a closed list (spec/60_exceptions.md R160). -/
inductive ErrorKind where
  | parseError
  | invalidRegister
  | unresolvedLabel
  | unsupportedInstruction
  | unsupportedOperation
  | memoryOutOfBounds
deriving DecidableEq, Repr

/-- The values of `STATUS.state` (R33). -/
inductive RunState where
  | run | halt | fault
deriving DecidableEq, Repr

/-- `STATUS` (R33): the constructor is its field `state`; `cause`, `fault_index` and `fault_info` exist only in `FAULT`,
where alone they have a meaning (notes/assumptions/4.md). -/
inductive Status where
  /-- `RUN`: the engine takes a step each cycle. -/
  | run
  /-- `HALT`: a fetch found `pc >= N`. -/
  | halt
  /-- `FAULT`: an error was raised during execution, at `index`, with the recorded `info` (R161). -/
  | fault (cause : ErrorKind) (index : Word) (info : Int)
deriving DecidableEq, Repr

/-- The data memory: the cells that do not hold `MEM_INIT`, by cell address (R34; notes/assumptions/2.md). -/
abbrev Memory := List (Nat × Word)

/-- The whole state of the hardware (R20, R33), with the parameters it was built with (R8). -/
structure State where
  /-- The parameters of R8, which nothing changes. -/
  params : Params
  /-- `RF`: the register file (R21). Read and written by `readReg` and `writeReg` alone; slot 0 is never used. -/
  regs : Vector Word 32
  /-- The program counter, a `u32` in units of one instruction (R25). -/
  pc : Word
  /-- `DMEM`: the data memory (R34). -/
  dmem : Memory
  /-- `STATUS` (R33). -/
  status : Status
  /-- `IMEM`: the instruction memory, holding `EncodedProgram` (R32); `N` is its length. -/
  imem : List Word
  /-- `textSegment` (R32), a load-time object. -/
  textSegment : List Text
  /-- `dataSegment` in declaration order (R30), a load-time object. -/
  dataSegment : List (Text × Word)
  /-- `labelAddress` (R31), a load-time object. -/
  labelAddress : List (Text × Nat)
deriving DecidableEq, Repr

/-- Why a step has no next state: "A halted or faulted engine takes no further step" (R124). Neither is raised by an
instruction. -/
inductive Fault where
  /-- Raised by `step` when `STATUS.state` is `HALT`. Safe: the model stops where the run has ended (notes/assumptions/5.md). -/
  | halted
  /-- Raised by `step` when `STATUS.state` is `FAULT`. Safe: the model stops where the run has ended (notes/assumptions/5.md). -/
  | faulted
deriving DecidableEq, Repr

/-- The refusals. No arm of `exec` uses one: every instruction has its meaning. -/
inductive Refusal where
  /-- Raised by an arm of `exec` for an instruction without a meaning; there is none. Safe. -/
  | notModelled (mnemonic : String)
deriving DecidableEq, Repr

/-- Execution start before seeding (R38; stage 3 of spec/70_reset_and_hazards.md R183): the run-time state is created
over the load-time objects. -/
def State.created (params : Params) (dataSegment : List (Text × Word)) (labelAddress : List (Text × Nat))
    (textSegment : List Text) (program : List Word) : State where
  params := params
  regs := Vector.replicate 32 Config.regInit
  pc := Config.pcInit
  dmem := []
  status := .run
  imem := program
  textSegment := textSegment
  dataSegment := dataSegment
  labelAddress := labelAddress

/-- The machine right after reset (R38), with the default parameters and nothing loaded (notes/assumptions/11.md). -/
def State.reset : State := State.created Params.default [] [] [] []

end Sys2Proof.Machine
end

