-- ==== Sys2Proof/Machine/Operands.lean ====
section
/-! DEFINITION. The integers behind the bits (spec/00_scope.md R15), the ALU functions (spec/43_alu_rtype.md R138), and
the two address forms: base plus sign-extended offset (spec/20_memory.md R40) and the branch target
(spec/45_control.md R153). Each arithmetic result is computed exactly and narrowed once. -/

namespace Sys2Proof.Machine

/-- `wrap32(v)`: the one `s32` congruent to `v` modulo 2^32, as a word (R15). -/
def wrap32 (v : Int) : Word := BitVec.ofInt 32 v

/-- `u32(v)`: the one `u32` congruent to `v` modulo 2^32 (R15); the same bits as `wrap32(v)`. -/
def u32 (v : Int) : Word := BitVec.ofInt 32 v

/-- `sext_16(f)`: `f` when `f < 2^15` and `f - 2^16` otherwise (R15, R61). -/
def sext16 (f : Imm16) : Int := if f.toNat < 2 ^ 15 then (f.toNat : Int) else (f.toNat : Int) - 2 ^ 16

/-- ALU add (R138): the wrapped exact sum. -/
def aluAdd (a b : Word) : Word := wrap32 (a.toInt + b.toInt)

/-- ALU subtract (R138): the wrapped exact difference. -/
def aluSub (a b : Word) : Word := wrap32 (a.toInt - b.toInt)

/-- ALU bitwise and, on the 32-bit patterns (R141). -/
def aluAnd (a b : Word) : Word := a &&& b

/-- ALU bitwise or, on the 32-bit patterns (R142). -/
def aluOr (a b : Word) : Word := a ||| b

/-- ALU add of a register and the sign-extended immediate (R147). -/
def aluAddImm (a : Word) (imm : Imm16) : Word := wrap32 (a.toInt + sext16 imm)

/-- The effective address of `lw` and `sw`: the exact integer sum, in cells, neither wrapped nor scaled
(R40, R45). -/
def effectiveAddress (base : Word) (imm : Imm16) : Int := base.toInt + sext16 imm

/-- The target of a taken `beq`, from the already-advanced PC (R153, R27). -/
def branchTarget (pc : Word) (imm : Imm16) : Word := u32 ((pc.toNat : Int) + sext16 imm)

end Sys2Proof.Machine
end

