-- ==== Sys2Proof/Machine/Flags.lean ====
section
/-! DEFINITION. The hardware has no flags, condition codes or predicates (spec/10_state.md R28): `slt` writes its 0 or 1
into a general register and `beq` compares two registers directly. This file holds those two comparisons, the last two of
the six ALU functions of spec/43_alu_rtype.md R138. -/

namespace Sys2Proof.Machine

/-- ALU signed less-than: the exact comparison of two `s32` values, as 1 or 0 (R143). -/
def aluSlt (a b : Word) : Word := if a.toInt < b.toInt then 1#32 else 0#32

/-- ALU equality of two `s32` values, the condition of `beq` (R153). -/
def aluEq (a b : Word) : Bool := decide (a.toInt = b.toInt)

end Sys2Proof.Machine
end

