-- ==== Sys2Proof/Machine/Ops.lean ====
section
/-! DEFINITION. The named operations over registers, PC, data memory and `STATUS` (spec/00_scope.md R16), and raising an
error as one shared operation (spec/60_exceptions.md R168). There is no return from an error: "no automatic retry", and a
faulted engine takes no step (R170), so no operation stands beside `raise`. -/

namespace Sys2Proof.Machine

/-! ### Registers -/

/-- `x[i]`: index 0 always reads 0 (R16, R21). -/
def State.readReg (s : State) (i : RegIdx) : Word :=
  if i = 0#5 then 0#32 else s.regs[i.toNat]'i.isLt

/-- `x[i] <- v`: a write to index 0 is silently discarded (R16, R21, R127). -/
def State.writeReg (s : State) (i : RegIdx) (v : Word) : State :=
  if i = 0#5 then s else { s with regs := s.regs.set i.toNat v i.isLt }

/-! ### Program counter -/

/-- `pc <- v` (R16). -/
def State.setPc (s : State) (v : Word) : State := { s with pc := v }

/-- The PC advance that Fetch makes (R123). -/
def State.advancePc (s : State) : State := s.setPc (s.pc + 1#32)

/-- `idx`, the index of the instruction being executed, once Fetch has advanced the PC by 1 (R26, R123;
notes/assumptions/6.md). -/
def State.fetchedIndex (s : State) : Word := s.pc - 1#32

/-! ### Data memory -/

/-- What a cell not listed holds: `MEM_INIT` (R8, R38). -/
def Memory.unlisted : Word := Config.memInit

/-- The canonical form: addresses strictly rising, and no entry equal to what an unlisted cell holds. -/
abbrev Memory.wf (m : Memory) : Prop :=
  m.Pairwise (fun c d => c.1 < d.1) ∧ ∀ c ∈ m, c.2 ≠ Memory.unlisted

/-- The word in cell `a`. -/
def Memory.read : Memory → Nat → Word
  | [], _ => Memory.unlisted
  | (k, w) :: m, a => if k = a then w else Memory.read m a

/-- Put `v` into cell `a`, keeping the canonical form: writing what an unlisted cell holds removes the entry. -/
def Memory.write : Memory → Nat → Word → Memory
  | [], a, v => if v = Memory.unlisted then [] else [(a, v)]
  | (k, w) :: m, a, v =>
    if a < k then (if v = Memory.unlisted then (k, w) :: m else (a, v) :: (k, w) :: m)
    else if k = a then (if v = Memory.unlisted then m else (a, v) :: m)
    else (k, w) :: Memory.write m a v

/-- The bounds check, part of the hardware: `0 <= addr < MEM_WORDS` (R41 to R43). -/
abbrev State.inBounds (s : State) (addr : Int) : Prop := 0 ≤ addr ∧ addr < (s.params.memWords : Int)

/-- `MemRead(addr, 1)`: the whole cell, or nothing where the address is out of bounds (R41). -/
def State.memRead (s : State) (addr : Int) : Option Word :=
  if s.inBounds addr then some (Memory.read s.dmem addr.toNat) else none

/-- `MemWrite(addr, 1, v)`: the state with that one cell changed, or nothing where the address is out of bounds
(R42). -/
def State.memWrite (s : State) (addr : Int) (v : Word) : Option State :=
  if s.inBounds addr then some { s with dmem := Memory.write s.dmem addr.toNat v } else none

/-! ### `STATUS` -/

/-- `STATUS <- v` (R33). -/
def State.setStatus (s : State) (v : Status) : State := { s with status := v }

/-- The code of an error, in the taxonomy's order (R161). -/
def ErrorKind.code : ErrorKind → Nat
  | .parseError => 1
  | .invalidRegister => 2
  | .unresolvedLabel => 3
  | .unsupportedInstruction => 4
  | .unsupportedOperation => 5
  | .memoryOutOfBounds => 6

/-- `STATUS.state` (R33). -/
def Status.state : Status → RunState
  | .run => .run
  | .halt => .halt
  | .fault _ _ _ => .fault

/-- `STATUS.cause`: 0 unless `state = FAULT` (R33). -/
def Status.causeCode : Status → Nat
  | .run => 0
  | .halt => 0
  | .fault cause _ _ => cause.code

/-- `STATUS.fault_index`, meaningful when `state = FAULT` (R33). -/
def Status.faultIndex : Status → Option Word
  | .run => none
  | .halt => none
  | .fault _ index _ => some index

/-- `STATUS.fault_info`, meaningful when `state = FAULT` (R33). -/
def Status.faultInfo : Status → Option Int
  | .run => none
  | .halt => none
  | .fault _ _ info => some info

/-! ### Raising an error -/

/-- `raise E(info)` in the execution phase: `STATUS` becomes (FAULT, code, idx, info) and nothing else changes; the PC
keeps the advance Fetch made (R168, R133). -/
def State.raise (s : State) (cause : ErrorKind) (info : Int) : State :=
  s.setStatus (.fault cause s.fetchedIndex info)

/-- `raise UnsupportedOperation(idx, W)`: the info is the word as a `u32` (R130, R161). -/
def State.raiseUnsupported (s : State) (w : Word) : State := s.raise .unsupportedOperation (w.toNat : Int)

/-- `raise MemoryOutOfBounds(addr)`: the info is the integer address (R41, R42, R161). -/
def State.raiseOutOfBounds (s : State) (addr : Int) : State := s.raise .memoryOutOfBounds addr

/-! ### Fetch -/

/-- The word at the current PC, or nothing when `pc >= N` (the "exhausted" sentinel, R123). -/
def State.fetch (s : State) : Option Word := s.imem[s.pc.toNat]?

/-- The instruction memory with the word `w` at index `i`; the indexes below `i` that held no word hold 0. -/
def placeWord (imem : List Word) (i : Nat) (w : Word) : List Word :=
  imem.take i ++ List.replicate (i - imem.length) 0#32 ++ w :: imem.drop (i + 1)

end Sys2Proof.Machine
end

