-- ==== Sys2Proof/Machine/Control.lean ====
section
/-! DEFINITION. The meanings of the control-transfer instructions (spec/45_control.md), and what the engine does with a
word of no row (spec/42_engine_cycle.md R130). Each acts on the state after Fetch has advanced the PC. -/

namespace Sys2Proof.Machine

/-- `beq rt, rs, imm`: a taken branch adds the sign-extended offset to the already-advanced PC (R153). -/
def execBeq (rt rs : RegIdx) (imm : Imm16) (s : State) : Host.Outcome State Fault Refusal :=
  .next (if aluEq (s.readReg rs) (s.readReg rt) then s.setPc (branchTarget s.pc imm) else s)

/-- `bne`: outside the dispatch table, so it raises `UnsupportedOperation(idx, W)` (R155). -/
def execBne (rt rs : RegIdx) (imm : Imm16) (s : State) : Host.Outcome State Fault Refusal :=
  .next (s.raiseUnsupported (encode (.bne rt rs imm)))

/-- `j`: outside the dispatch table, so it raises `UnsupportedOperation(idx, W)` (R156). -/
def execJ (target : Target26) (s : State) : Host.Outcome State Fault Refusal :=
  .next (s.raiseUnsupported (encode (.j target)))

/-- A word of no row of the instruction-set table raises `UnsupportedOperation(idx, W)` (R130, R67). -/
def execUnlisted (w : Word) (s : State) : Host.Outcome State Fault Refusal :=
  .next (s.raiseUnsupported w)

end Sys2Proof.Machine
end

