-- ==== Sys2Proof/Machine/ImmMem.lean ====
section
/-! DEFINITION. The meanings of the immediate and memory instructions (spec/44_immediate_memory.md). Each acts on the
state after Fetch has advanced the PC. -/

namespace Sys2Proof.Machine

/-- `addi rt, rs, imm` (R147). -/
def execAddi (rt rs : RegIdx) (imm : Imm16) (s : State) : Host.Outcome State Fault Refusal :=
  .next (s.writeReg rt (aluAddImm (s.readReg rs) imm))

/-- `lw rt, imm(rs)`: the bounds check comes first, and is made for `rt = 0` too (R148, R127). -/
def execLw (rt rs : RegIdx) (imm : Imm16) (s : State) : Host.Outcome State Fault Refusal :=
  match s.memRead (effectiveAddress (s.readReg rs) imm) with
  | some v => .next (s.writeReg rt v)
  | none => .next (s.raiseOutOfBounds (effectiveAddress (s.readReg rs) imm))

/-- `sw rt, imm(rs)` (R149). -/
def execSw (rt rs : RegIdx) (imm : Imm16) (s : State) : Host.Outcome State Fault Refusal :=
  match s.memWrite (effectiveAddress (s.readReg rs) imm) (s.readReg rt) with
  | some t => .next t
  | none => .next (s.raiseOutOfBounds (effectiveAddress (s.readReg rs) imm))

end Sys2Proof.Machine
end

