-- ==== Sys2Proof/Machine/RType.lean ====
section
/-! DEFINITION. The meanings of the R-format instructions (spec/43_alu_rtype.md). Each acts on the state after Fetch has
advanced the PC; sources are read before the destination is written (R145). -/

namespace Sys2Proof.Machine

/-- `add rd, rs, rt` (R139). -/
def execAdd (rd rs rt : RegIdx) (s : State) : Host.Outcome State Fault Refusal :=
  .next (s.writeReg rd (aluAdd (s.readReg rs) (s.readReg rt)))

/-- `sub rd, rs, rt`: `rs` minus `rt` (R140). -/
def execSub (rd rs rt : RegIdx) (s : State) : Host.Outcome State Fault Refusal :=
  .next (s.writeReg rd (aluSub (s.readReg rs) (s.readReg rt)))

/-- `and rd, rs, rt` (R141). -/
def execAnd (rd rs rt : RegIdx) (s : State) : Host.Outcome State Fault Refusal :=
  .next (s.writeReg rd (aluAnd (s.readReg rs) (s.readReg rt)))

/-- `or rd, rs, rt` (R142). -/
def execOr (rd rs rt : RegIdx) (s : State) : Host.Outcome State Fault Refusal :=
  .next (s.writeReg rd (aluOr (s.readReg rs) (s.readReg rt)))

/-- `slt rd, rs, rt`, signed (R143). -/
def execSlt (rd rs rt : RegIdx) (s : State) : Host.Outcome State Fault Refusal :=
  .next (s.writeReg rd (aluSlt (s.readReg rs) (s.readReg rt)))

/-- `nor`: outside the dispatch table, so it raises `UnsupportedOperation(idx, W)` whatever its fields are (R144).
`W` is the word of the instruction, its `shamt` included. -/
def execNor (rd rs rt : RegIdx) (shamt : BitVec 5) (s : State) : Host.Outcome State Fault Refusal :=
  .next (s.raiseUnsupported (encode (.nor rd rs rt shamt)))

end Sys2Proof.Machine
end

