-- ==== Sys2Proof/Machine/Dispatch.lean ====
section
/-! DEFINITION. The dispatch of Execute: one meaning per row of the instruction-set table (spec/42_engine_cycle.md R126,
R129). The executed R-format rows drop `shamt` (spec/30_encoding.md R66). -/

namespace Sys2Proof.Machine

def exec (i : Instr) (s : State) : Host.Outcome State Fault Refusal :=
  match i with
  | .add rd rs rt _ => Sys2Proof.Machine.execAdd rd rs rt s
  | .sub rd rs rt _ => Sys2Proof.Machine.execSub rd rs rt s
  | .and rd rs rt _ => Sys2Proof.Machine.execAnd rd rs rt s
  | .or rd rs rt _ => Sys2Proof.Machine.execOr rd rs rt s
  | .slt rd rs rt _ => Sys2Proof.Machine.execSlt rd rs rt s
  | .nor rd rs rt shamt => Sys2Proof.Machine.execNor rd rs rt shamt s
  | .addi rt rs imm => Sys2Proof.Machine.execAddi rt rs imm s
  | .lw rt rs imm => Sys2Proof.Machine.execLw rt rs imm s
  | .sw rt rs imm => Sys2Proof.Machine.execSw rt rs imm s
  | .beq rt rs imm => Sys2Proof.Machine.execBeq rt rs imm s
  | .bne rt rs imm => Sys2Proof.Machine.execBne rt rs imm s
  | .j target => Sys2Proof.Machine.execJ target s

end Sys2Proof.Machine
end

