-- ==== Sys2Proof/Machine/Cycle.lean ====
section
/-! DEFINITION. The cycle of a running engine: Fetch, Decode, Execute, Write-back (spec/42_engine_cycle.md R122, R131). -/

namespace Sys2Proof.Machine

/-- Decode, Execute and Write-back of a fetched word, on the state whose PC Fetch has advanced (R125 to R130). -/
def execWord (w : Word) (s : State) : Host.Outcome State Fault Refusal :=
  match decode w with
  | .ok i => exec i s
  | .error _ => execUnlisted w s

/-- One cycle (R131). An exhausted Fetch sets `STATUS.state` to `HALT` and changes nothing else (R124). -/
def runCycle (s : State) : Host.Outcome State Fault Refusal :=
  match s.fetch with
  | none => .next (s.setStatus .halt)
  | some w => execWord w s.advancePc

end Sys2Proof.Machine
end

