-- ==== Sys2Proof/Machine/Step.lean ====
section
/-! DEFINITION. One step of the engine (spec/42_engine_cycle.md R131), and the state whose next step runs a given word. -/

namespace Sys2Proof.Machine

/-- One step (R131): a cycle while `STATUS.state` is `RUN`. A halted or faulted engine takes no further step (R124;
notes/assumptions/5.md). -/
def step (s : State) : Host.Outcome State Fault Refusal :=
  match s.status with
  | .run => runCycle s
  | .halt => .fault .halted
  | .fault _ _ _ => .fault .faulted

/-- `s` with one instruction word where the next fetch reads, and `STATUS = RUN` so that the next step fetches
(notes/assumptions/11.md). -/
def State.withFetchWord (s : State) (nbits w : Nat) : State :=
  { s with imem := placeWord s.imem s.pc.toNat (tableWord nbits w), status := .run }

end Sys2Proof.Machine
end

