-- ==== Sys2Proof/Machine/Lexical.lean ====
section
/-! DEFINITION. The lexical functions of the assembler text: white space, splitting, decimal integers, label names, register
and mnemonic names (spec/40_resolver.md R82, R85, R86, R92; spec/41_encoder.md R101 to R104; spec/10_state.md R24). -/

namespace Sys2Proof.Machine

/-- White space: space, tab, line feed, vertical tab, form feed, carriage return (R82; notes/assumptions/7.md). -/
def isSpace (c : Char) : Bool :=
  c == ' ' || c == '\t' || c == '\n' || c == '\x0b' || c == '\x0c' || c == '\r'

/-- A digit `0`-`9`. -/
def isDecDigit (c : Char) : Bool := '0'.toNat ≤ c.toNat && c.toNat ≤ '9'.toNat

/-- A letter `A`-`Z` or `a`-`z`. -/
def isLetter (c : Char) : Bool :=
  ('A'.toNat ≤ c.toNat && c.toNat ≤ 'Z'.toNat) || ('a'.toNat ≤ c.toNat && c.toNat ≤ 'z'.toNat)

/-- Remove leading and trailing white space (R82). -/
def strip (t : Text) : Text := ((t.dropWhile isSpace).reverse.dropWhile isSpace).reverse

/-- The text before the first `c` (all of it where there is none). -/
def before (c : Char) (t : Text) : Text := t.takeWhile (· != c)

/-- The text after the first `c` (empty where there is none). -/
def after (c : Char) (t : Text) : Text := (t.dropWhile (· != c)).drop 1

/-- Whether `c` occurs in the text. -/
def hasChar (c : Char) (t : Text) : Bool := t.contains c

/-- Split at runs of the separator characters; `cur` is the token under way, reversed. Runs at the two ends give no
empty token (R85; notes/assumptions/8.md). -/
def tokensFrom (sep : Char → Bool) : Text → Text → List Text
  | cur, [] => if cur.isEmpty then [] else [cur.reverse]
  | cur, c :: t =>
    if sep c then (if cur.isEmpty then tokensFrom sep [] t else cur.reverse :: tokensFrom sep [] t)
    else tokensFrom sep (c :: cur) t

/-- The tokens of a data line's text after the colon: split at runs of white space or commas (R85). -/
def dataTokens (t : Text) : List Text := tokensFrom (fun c => isSpace c || c == ',') [] t

/-- Split at every comma; there is always at least one piece (R101). -/
def splitCommas : Text → List Text
  | [] => [[]]
  | c :: t =>
    if c = ',' then [] :: splitCommas t
    else
      match splitCommas t with
      | [] => [[c]]
      | p :: ps => (c :: p) :: ps

/-- The value of a non-empty string of decimal digits (R103, R104). -/
def decimalNat (t : Text) : Option Nat :=
  if t.isEmpty || !t.all isDecDigit then none
  else some (t.foldl (fun n c => 10 * n + (c.toNat - '0'.toNat)) 0)

/-- An optional `+` or `-` followed by one or more digits, an integer of any size (R86, R104). -/
def decimalInt : Text → Option Int
  | [] => none
  | c :: t =>
    if c = '+' then (decimalNat t).map fun n => (n : Int)
    else if c = '-' then (decimalNat t).map fun n => -(n : Int)
    else (decimalNat (c :: t)).map fun n => (n : Int)

/-- A label name: `[A-Za-z_.][A-Za-z0-9_.]*` (R92). -/
def isLabelName : Text → Bool
  | [] => false
  | c :: t =>
    (isLetter c || c == '_' || c == '.') && t.all fun d => isLetter d || isDecDigit d || d == '_' || d == '.'

/-- The 32 register names without their `$`, in index order (R24; all but the two ends are from general knowledge:
notes/assumptions/3.md). -/
def registerNames : List Text :=
  [['z', 'e', 'r', 'o'], ['a', 't'], ['v', '0'], ['v', '1'], ['a', '0'], ['a', '1'], ['a', '2'], ['a', '3']] ++
  [['t', '0'], ['t', '1'], ['t', '2'], ['t', '3'], ['t', '4'], ['t', '5'], ['t', '6'], ['t', '7']] ++
  [['s', '0'], ['s', '1'], ['s', '2'], ['s', '3'], ['s', '4'], ['s', '5'], ['s', '6'], ['s', '7']] ++
  [['t', '8'], ['t', '9'], ['k', '0'], ['k', '1'], ['g', 'p'], ['s', 'p'], ['f', 'p'], ['r', 'a']]

/-- The position of an element in a list. -/
def positionIn (names : List Text) (t : Text) : Option Nat := names.findIdx? (· == t)

/-- `reg(tok)` of R103: `$` and a register name, or `$` and a decimal numeral 0 to 31; nothing for any other token. -/
def parseRegister : Text → Option RegIdx
  | [] => none
  | c :: t =>
    if c = '$' then
      match positionIn registerNames t with
      | some i => some (BitVec.ofNat 5 i)
      | none =>
        match decimalNat t with
        | some n => if n ≤ 31 then some (BitVec.ofNat 5 n) else none
        | none => none
    else none

/-- The name of a mnemonic, in lower case (R65, R102). -/
def mnemonicName : Mnemonic → Text
  | .r .add => ['a', 'd', 'd']
  | .r .sub => ['s', 'u', 'b']
  | .r .and => ['a', 'n', 'd']
  | .r .or => ['o', 'r']
  | .r .slt => ['s', 'l', 't']
  | .r .nor => ['n', 'o', 'r']
  | .i .addi => ['a', 'd', 'd', 'i']
  | .i .lw => ['l', 'w']
  | .i .sw => ['s', 'w']
  | .b .beq => ['b', 'e', 'q']
  | .b .bne => ['b', 'n', 'e']
  | .j => ['j']

/-- Mnemonic lookup in the closed table, character for character (R65, R102). -/
def findMnemonic (t : Text) : Option Mnemonic := Mnemonic.all.find? fun m => mnemonicName m == t

/-- Lookup of a name in a label map: the value of its declaration (R30, R31, R109). -/
def lookupLabel {α : Type} (m : List (Text × α)) (name : Text) : Option α := (m.find? fun e => e.1 == name).map (·.2)

end Sys2Proof.Machine
end

