-- ==== Sys2Proof/Machine/Resolver.lean ====
section
/-! DEFINITION. The symbol and segment resolver (spec/40_resolver.md): one forward scan of the source lines (R94, R97).
Also the load errors of every later stage, so that one type holds them all (spec/60_exceptions.md R161). -/

namespace Sys2Proof.Machine

/-- What the encoder raises on one line (R161, R181). -/
inductive EncodeError where
  /-- A wrong operand count, a bad immediate, a malformed `offset(base)`, or an immediate out of range under `refuse`
  (R104, R113, R116, U1). -/
  | parseError
  /-- A token in a register position that names no register (R103). -/
  | invalidRegister (token : Text)
  /-- A branch or jump label that is no key of `labelAddress` (R109). -/
  | unresolvedLabel (name : Text)
  /-- A mnemonic absent from the table (R102). -/
  | unsupportedInstruction (mnemonic : Text)
deriving DecidableEq, Repr

/-- A load error: it stops the load sequence, and there is no run (R168, R183; notes/assumptions/10.md). -/
inductive LoadError where
  /-- `ParseError` of the resolver, with the source line (R97). -/
  | parseLine (line : Text)
  /-- `ParseError`: no `.text` directive (R83). -/
  | missingText
  /-- `ParseError`: more than `IMEM_MAX` instructions (R96). -/
  | programTooLarge
  /-- An encoder error, with the index and the text of the instruction line (R161). -/
  | encoding (index : Nat) (line : Text) (error : EncodeError)
  /-- `MemoryOutOfBounds` at seeding, with the address (R48). -/
  | seeding (addr : Int)
deriving DecidableEq, Repr

/-- The error of the taxonomy (R160). -/
def EncodeError.kind : EncodeError → ErrorKind
  | .parseError => .parseError
  | .invalidRegister _ => .invalidRegister
  | .unresolvedLabel _ => .unresolvedLabel
  | .unsupportedInstruction _ => .unsupportedInstruction

/-- The error of the taxonomy (R160, R161). -/
def LoadError.kind : LoadError → ErrorKind
  | .parseLine _ => .parseError
  | .missingText => .parseError
  | .programTooLarge => .parseError
  | .encoding _ _ e => e.kind
  | .seeding _ => .memoryOutOfBounds

/-- The two segments of a source text (R80, R83). -/
inductive Segment where
  | data | text
deriving DecidableEq, Repr

/-- What the scan has built so far (R97). -/
structure Scan where
  /-- The current segment, none before the first directive. -/
  current : Option Segment
  /-- Whether a `.text` directive was seen. -/
  sawText : Bool
  dataSegment : List (Text × Word)
  labelAddress : List (Text × Nat)
  textSegment : List Text
deriving DecidableEq, Repr

/-- The scan before the first line (R97). -/
def Scan.start : Scan := ⟨none, false, [], [], []⟩

/-- The directive `.data` (R82). -/
def dataDirective : Text := ['.', 'd', 'a', 't', 'a']

/-- The directive `.text` (R82). -/
def textDirective : Text := ['.', 't', 'e', 'x', 't']

/-- The data value of a token: a decimal integer within `s32` (R86). -/
def dataValue (t : Text) : Option Word :=
  match decimalInt t with
  | some v => if -(2 ^ 31) ≤ v ∧ v ≤ 2 ^ 31 - 1 then some (wrap32 v) else none
  | none => none

/-- The label name of a line: the stripped text before its first `:` (R85, R92). -/
def lineLabel (s : Text) : Text := strip (before ':' s)

/-- A data line, stripped: `label: directive value` (R85 to R87, R92, R93). -/
def scanData (line s : Text) (k : Scan) : Except LoadError Scan :=
  if !hasChar ':' s then .error (.parseLine line)
  else if !isLabelName (lineLabel s) then .error (.parseLine line)
  else if (lookupLabel k.dataSegment (lineLabel s)).isSome then .error (.parseLine line)
  else
    match dataTokens (after ':' s) with
    | _ :: value :: _ =>
      match dataValue value with
      | some v => .ok { k with dataSegment := k.dataSegment ++ [(lineLabel s, v)] }
      | none => .error (.parseLine line)
    | _ => .error (.parseLine line)

/-- Append an instruction, unless the line held only a label (R89, R90). -/
def appendInstruction (s : Text) (k : Scan) : Scan :=
  if s.isEmpty then k else { k with textSegment := k.textSegment ++ [s] }

/-- A text line, stripped: `[label:] instruction` (R88 to R93). -/
def scanText (line s : Text) (k : Scan) : Except LoadError Scan :=
  if !hasChar ':' s then .ok (appendInstruction s k)
  else if !isLabelName (lineLabel s) then .error (.parseLine line)
  else if (lookupLabel k.labelAddress (lineLabel s)).isSome then .error (.parseLine line)
  else
    .ok (appendInstruction (strip (after ':' s))
      { k with labelAddress := k.labelAddress ++ [(lineLabel s, k.textSegment.length)] })

/-- One stripped line of the scan: blank, directive, data line or text line (R82 to R84, R97). The source line itself is
kept for the error. -/
def scanStripped (line s : Text) (k : Scan) : Except LoadError Scan :=
  if s.isEmpty then .ok k
  else if s = dataDirective then .ok { k with current := some .data }
  else if s = textDirective then .ok { k with current := some .text, sawText := true }
  else
    match k.current with
    | none => .error (.parseLine line)
    | some .data => scanData line s k
    | some .text => scanText line s k

/-- One line of the scan (R82, R97). -/
def scanLine (line : Text) (k : Scan) : Except LoadError Scan := scanStripped line (strip line) k

/-- The lines in order; the first failing line stops the scan (R97). -/
def scanLines : List Text → Scan → Except LoadError Scan
  | [], k => .ok k
  | line :: rest, k =>
    match scanLine line k with
    | .ok k' => scanLines rest k'
    | .error e => .error e

/-- `resolve(lines)` (R97); the end-of-scan checks come last (R83, R96, R171). -/
def resolve (p : Params) (lines : List Text) : Except LoadError Scan :=
  match scanLines lines Scan.start with
  | .error e => .error e
  | .ok k =>
    if !k.sawText then .error .missingText
    else if p.imemMax < k.textSegment.length then .error .programTooLarge
    else .ok k

end Sys2Proof.Machine
end

