-- ==== Sys2Proof/Machine/Assembler.lean ====
section
/-! DEFINITION. The instruction encoder (spec/41_encoder.md): an operand stage that turns a line into an abstract
instruction, and a total packer (R99). It is a pure function; its two maps are those of the finished scan (R98, R189). -/

namespace Sys2Proof.Machine

/-- The abstract instruction (R100). -/
inductive AsmInstr where
  | r (op : ROp) (rd rs rt : RegIdx)
  | i (op : IOp) (rt rs : RegIdx) (v : Int)
  | b (op : BOp) (rt rs : RegIdx) (target : Nat)
  | j (target : Nat)
deriving DecidableEq, Repr

/-- The resolved operand of the general I-format subset, tagged by its kind (R99, R100): form (a), forms (b) and (c2),
form (c1) of R113. -/
inductive OperandKind where
  | immediate (rs : RegIdx) (v : Int)
  | baseOffset (v : Int) (rs : RegIdx)
  | dataLabelReference (v : Int)
deriving DecidableEq, Repr

/-- The base register an operand kind stands for: register 0 for a data label (R113). -/
def OperandKind.base : OperandKind → RegIdx
  | .immediate rs _ => rs
  | .baseOffset _ rs => rs
  | .dataLabelReference _ => 0#5

/-- The immediate an operand kind stands for (R113). -/
def OperandKind.value : OperandKind → Int
  | .immediate _ v => v
  | .baseOffset v _ => v
  | .dataLabelReference v => v

/-! ### Operands -/

/-- The mnemonic of a line: its text up to the first white space (R101). -/
def lineMnemonic (line : Text) : Text := (strip line).takeWhile fun c => !isSpace c

/-- The operand text of a line: what follows the mnemonic, stripped (R101). -/
def operandText (line : Text) : Text := strip ((strip line).dropWhile fun c => !isSpace c)

/-- The operands of a line: its operand text split at every comma, each piece stripped; none where there is no operand
text (R101). -/
def lineOperands (line : Text) : List Text :=
  if (operandText line).isEmpty then [] else (splitCommas (operandText line)).map strip

/-- `reg(tok)` (R103). -/
def regOperand (tok : Text) : Except EncodeError RegIdx :=
  match parseRegister tok with
  | some i => .ok i
  | none => .error (.invalidRegister tok)

/-- `int(tok)` (R104). -/
def intOperand (tok : Text) : Except EncodeError Int :=
  match decimalInt tok with
  | some v => .ok v
  | none => .error .parseError

/-- A label operand of a branch or a jump, looked up in `labelAddress` only (R109). -/
def labelOperand (labelAddress : List (Text × Nat)) (tok : Text) : Except EncodeError Nat :=
  match lookupLabel labelAddress tok with
  | some n => .ok n
  | none => .error (.unresolvedLabel tok)

/-- Form (a): `rs, imm` (R113). -/
def immediateForm (op1 op2 : Text) : Except EncodeError OperandKind := do
  let rs ← regOperand op1
  let v ← intOperand op2
  return .immediate rs v

/-- Form (b): `off(base)`, cut at the first `(` and at the first `)` after it; the offset is parsed first (R113, R117). -/
def baseOffsetForm (op1 : Text) : Except EncodeError OperandKind :=
  if !hasChar ')' (after '(' op1) then .error .parseError
  else if !(strip (after ')' (after '(' op1))).isEmpty then .error .parseError
  else do
    let v ← intOperand (strip (before '(' op1))
    let rs ← regOperand (strip (before ')' (after '(' op1)))
    return .baseOffset v rs

/-- Form (c): a data label, with register 0 as the base (c1), or a bare base register, with immediate 0 (c2). Text labels
are not looked up here (R113). -/
def singleTokenForm (dataSegment : List (Text × Word)) (op1 : Text) : Except EncodeError OperandKind :=
  match lookupLabel dataSegment op1 with
  | some v => .ok (.dataLabelReference v.toInt)
  | none => do
    let rs ← regOperand op1
    return .baseOffset 0 rs

/-- A two-operand line: form (b) where its second operand holds a `(`, else form (c) (R112). -/
def pairForm (dataSegment : List (Text × Word)) (op1 : Text) : Except EncodeError OperandKind :=
  if hasChar '(' op1 then baseOffsetForm op1 else singleTokenForm dataSegment op1

/-- `rd, rs, rt` (R105). -/
def rOperands (op : ROp) : List Text → Except EncodeError AsmInstr
  | [op0, op1, op2] => do
    let rd ← regOperand op0
    let rs ← regOperand op1
    let rt ← regOperand op2
    return .r op rd rs rt
  | _ => .error .parseError

/-- The four operand forms of `addi`, `lw`, `sw`, chosen by the shape of the operand list only (R112, R113). -/
def iOperands (dataSegment : List (Text × Word)) (op : IOp) : List Text → Except EncodeError AsmInstr
  | [op0, op1, op2] => do
    let rt ← regOperand op0
    let k ← immediateForm op1 op2
    return .i op rt k.base k.value
  | [op0, op1] => do
    let rt ← regOperand op0
    let k ← pairForm dataSegment op1
    return .i op rt k.base k.value
  | _ => .error .parseError

/-- `rt, rs, label` (R107). -/
def bOperands (labelAddress : List (Text × Nat)) (op : BOp) : List Text → Except EncodeError AsmInstr
  | [op0, op1, op2] => do
    let rt ← regOperand op0
    let rs ← regOperand op1
    let target ← labelOperand labelAddress op2
    return .b op rt rs target
  | _ => .error .parseError

/-- `label` (R110). -/
def jOperands (labelAddress : List (Text × Nat)) : List Text → Except EncodeError AsmInstr
  | [op0] => do
    let target ← labelOperand labelAddress op0
    return .j target
  | _ => .error .parseError

/-- The operand stage: mnemonic, then operand count, then operands left to right (R117). -/
def operandStage (dataSegment : List (Text × Word)) (labelAddress : List (Text × Nat)) (line : Text) :
    Except EncodeError AsmInstr :=
  match findMnemonic (lineMnemonic line) with
  | none => .error (.unsupportedInstruction (lineMnemonic line))
  | some (.r op) => rOperands op (lineOperands line)
  | some (.i op) => iOperands dataSegment op (lineOperands line)
  | some (.b op) => bOperands labelAddress op (lineOperands line)
  | some .j => jOperands labelAddress (lineOperands line)

/-! ### Packing -/

/-- The branch offset: the distance from the instruction after the branch (R62, R108). -/
def branchOffset (index target : Nat) : Int := (target : Int) - ((index : Int) + 1)

/-- The R-format instruction of a mnemonic, with `shamt` 0 (R106, R64). -/
def packROp (op : ROp) (rd rs rt : RegIdx) : Instr :=
  match op with
  | .add => .add rd rs rt 0#5
  | .sub => .sub rd rs rt 0#5
  | .and => .and rd rs rt 0#5
  | .or => .or rd rs rt 0#5
  | .slt => .slt rd rs rt 0#5
  | .nor => .nor rd rs rt 0#5

/-- The I-format instruction of a mnemonic, with the immediate modulo 2^16 (R114, R61). -/
def packIOp (op : IOp) (rt rs : RegIdx) (v : Int) : Instr :=
  match op with
  | .addi => .addi rt rs (BitVec.ofInt 16 v)
  | .lw => .lw rt rs (BitVec.ofInt 16 v)
  | .sw => .sw rt rs (BitVec.ofInt 16 v)

/-- The branch of a mnemonic, with the offset modulo 2^16 (R108). -/
def packBOp (op : BOp) (rt rs : RegIdx) (offset : Int) : Instr :=
  match op with
  | .beq => .beq rt rs (BitVec.ofInt 16 offset)
  | .bne => .bne rt rs (BitVec.ofInt 16 offset)

/-- The packer, total, on the fields of the instruction at position `index` (R99, R106, R108, R111, R114). -/
def AsmInstr.toInstr (index : Nat) : AsmInstr → Instr
  | .r op rd rs rt => packROp op rd rs rt
  | .i op rt rs v => packIOp op rt rs v
  | .b op rt rs target => packBOp op rt rs (branchOffset index target)
  | .j target => .j (BitVec.ofNat 26 target)

/-- Whether the immediate or branch offset fits 16 bits, signed (R115, U1). -/
def AsmInstr.fits (index : Nat) : AsmInstr → Bool
  | .r _ _ _ _ => true
  | .i _ _ _ v => decide (-(2 ^ 15) ≤ v ∧ v ≤ 2 ^ 15 - 1)
  | .b _ _ _ target => decide (-(2 ^ 15) ≤ branchOffset index target ∧ branchOffset index target ≤ 2 ^ 15 - 1)
  | .j _ => true

/-- `IMM_OVERFLOW`: nothing is checked by default (R115); under `refuse` a value that does not fit raises `ParseError`,
after the operands (U1; notes/assumptions/9.md). -/
def checkRange (o : ImmOverflow) (index : Nat) (a : AsmInstr) : Except EncodeError AsmInstr :=
  match o with
  | .truncate => .ok a
  | .refuse => if a.fits index then .ok a else .error .parseError

/-- `encode(instructionLine, dataSegment, labelAddress, index) -> 32-bit word` (R98, R120). -/
def encodeLine (o : ImmOverflow) (line : Text) (dataSegment : List (Text × Word)) (labelAddress : List (Text × Nat))
    (index : Nat) : Except EncodeError Word := do
  let a ← operandStage dataSegment labelAddress line
  let a ← checkRange o index a
  return encode (a.toInstr index)

/-- The lines from position `index` on, in order; the first error aborts the phase (R118). -/
def encodeFrom (o : ImmOverflow) (dataSegment : List (Text × Word)) (labelAddress : List (Text × Nat)) :
    Nat → List Text → Except LoadError (List Word)
  | _, [] => .ok []
  | index, line :: rest =>
    match encodeLine o line dataSegment labelAddress index with
    | .error e => .error (.encoding index line e)
    | .ok w =>
      match encodeFrom o dataSegment labelAddress (index + 1) rest with
      | .error e => .error e
      | .ok ws => .ok (w :: ws)

/-- `EncodedProgram` of a finished scan (R118). -/
def encodeProgram (o : ImmOverflow) (k : Scan) : Except LoadError (List Word) :=
  encodeFrom o k.dataSegment k.labelAddress 0 k.textSegment

end Sys2Proof.Machine
end

