-- ==== Sys2Proof/Machine/Load.lean ====
section
/-! DEFINITION. The load sequence (spec/70_reset_and_hazards.md R183): resolution, encoding, reset, seeding. Its result is the
state in which execution starts. -/

namespace Sys2Proof.Machine

/-- Seeding: `MemWrite(v, 1, v)` for each data label, in declaration order; an out-of-bounds value is a load error
(spec/20_memory.md R47, R48). -/
def seed : List (Text × Word) → State → Except LoadError State
  | [], s => .ok s
  | (_, v) :: rest, s =>
    match s.memWrite v.toInt v with
    | some t => seed rest t
    | none => .error (.seeding v.toInt)

/-- The load sequence, stages 1 to 4 (R183). -/
def load (p : Params) (lines : List Text) : Except LoadError State :=
  match resolve p lines with
  | .error e => .error e
  | .ok k =>
    match encodeProgram p.immOverflow k with
    | .error e => .error e
    | .ok program => seed k.dataSegment (State.created p k.dataSegment k.labelAddress k.textSegment program)

end Sys2Proof.Machine
end

