-- ==== Sys2Proof/Machine/Run.lean ====
section
/-! DEFINITION. A run of the engine under a step bound of the host (spec/42_engine_cycle.md R134; spec/93_implementation_defined.md
U13), and how a run has ended (spec/70_reset_and_hazards.md R186). -/

namespace Sys2Proof.Machine

/-- At most `fuel` steps, stopping at the first state whose `STATUS.state` is not `RUN` (R134, R186). A result still in
`RUN` is "out of fuel", which is no end of run and no error. -/
def run : Nat → State → State
  | 0, s => s
  | fuel + 1, s =>
    match step s with
    | .next t => run fuel t
    | .fault _ => s
    | .refused _ => s

/-- How a run stands, as it is owed to the host (R176). -/
inductive RunResult where
  /-- Exhaustion, the sole normal termination. -/
  | halted
  /-- An error of the execution phase, with its recorded index and info. -/
  | faulted (cause : ErrorKind) (index : Word) (info : Int)
  /-- The bound was reached first: the run has not ended. -/
  | outOfFuel
deriving DecidableEq, Repr

/-- How the run stands in a state (R176, R186). -/
def State.result (s : State) : RunResult :=
  match s.status with
  | .run => .outOfFuel
  | .halt => .halted
  | .fault cause index info => .faulted cause index info

end Sys2Proof.Machine
end

