-- ==== Sys2Proof/Machine/Observe.lean ====
section
/-! DEFINITION. The observability surface (spec/42_engine_cycle.md R136; spec/60_exceptions.md R179, R180): the tuple of a
cycle and the snapshots. Reading them has no effect on the run. -/

namespace Sys2Proof.Machine

/-- The tuple of one cycle: PC before Fetch, decoded fields, and the delta (R136). -/
structure Observation where
  idx : Word
  fields : Fields
  /-- The register write that took effect (none when the index is 0). -/
  regWrite : Option (RegIdx × Word)
  /-- The data-memory write that took effect. -/
  memWrite : Option (Nat × Word)
  pcAfter : Word
deriving DecidableEq, Repr

/-- The register an instruction writes when it completes (R23, R127). -/
def destination : Instr → Option RegIdx
  | .add rd _ _ _ => some rd
  | .sub rd _ _ _ => some rd
  | .and rd _ _ _ => some rd
  | .or rd _ _ _ => some rd
  | .slt rd _ _ _ => some rd
  | .nor _ _ _ _ => none
  | .addi rt _ _ => some rt
  | .lw rt _ _ => some rt
  | .sw _ _ _ => none
  | .beq _ _ _ => none
  | .bne _ _ _ => none
  | .j _ => none

/-- The cell address and the value an instruction stores when it completes in state `s`: only `sw` stores (R34, R149). -/
def storeOf (s : State) : Instr → Option (Nat × Word)
  | .add _ _ _ _ => none
  | .sub _ _ _ _ => none
  | .and _ _ _ _ => none
  | .or _ _ _ _ => none
  | .slt _ _ _ _ => none
  | .nor _ _ _ _ => none
  | .addi _ _ _ => none
  | .lw _ _ _ => none
  | .sw rt rs imm => some ((effectiveAddress (s.readReg rs) imm).toNat, s.readReg rt)
  | .beq _ _ _ => none
  | .bne _ _ _ => none
  | .j _ => none

/-- The register write of the delta: the destination, unless it is index 0, with the value it holds afterwards. -/
def regDelta (i : Instr) (after : State) : Option (RegIdx × Word) :=
  match destination i with
  | none => none
  | some d => if d = 0#5 then none else some (d, after.readReg d)

/-- The tuple of the cycle that turns `s` into `after` by the fetched word `w`. A cycle that raised an error wrote
nothing (R133). -/
def observation (s : State) (w : Word) (after : State) : Observation :=
  match decode w with
  | .ok i =>
    if after.status = .run then ⟨s.pc, Fields.ofWord w, regDelta i after, storeOf s i, after.pc⟩
    else ⟨s.pc, Fields.ofWord w, none, none, after.pc⟩
  | .error _ => ⟨s.pc, Fields.ofWord w, none, none, after.pc⟩

/-- The tuple of the next cycle. An exhausted Fetch yields none, since no word is fetched (R180), and a stopped engine has
no cycle. -/
def observe (s : State) : Option Observation :=
  match s.status with
  | .run =>
    match s.fetch with
    | none => none
    | some w =>
      match step s with
      | .next t => some (observation s w t)
      | .fault _ => none
      | .refused _ => none
  | .halt => none
  | .fault _ _ _ => none

/-- The register file snapshot `x[0..31]` (R179). -/
def State.registerSnapshot (s : State) : List Word :=
  (List.range 32).map fun i => s.readReg (BitVec.ofNat 5 i)

/-- The memory snapshot `DMEM[0..MEM_WORDS-1]` (R179). -/
def State.memorySnapshot (s : State) : List Word :=
  (List.range s.params.memWords).map fun a => Memory.read s.dmem a

end Sys2Proof.Machine
end

