-- ==== Sys2Proof/Safety.lean ====
section
/-! DEFINITION. The terms the claims use: the invariant of the machine, and what an instruction leaves unchanged. -/

namespace Sys2Proof.Machine

/-- The `executed` column of spec/30_encoding.md R65: the nine rows of the dispatch table (R129). -/
def executed : Mnemonic → Bool
  | .r .add => true
  | .r .sub => true
  | .r .and => true
  | .r .or => true
  | .r .slt => true
  | .r .nor => false
  | .i .addi => true
  | .i .lw => true
  | .i .sw => true
  | .b .beq => true
  | .b .bne => false
  | .j => false

/-- The word belongs to one of the nine rows the engine executes (R66). -/
def executable (w : Word) : Bool :=
  match decode w with
  | .ok i => executed i.mnemonic
  | .error _ => false

/-- The load-time objects and the parameters are the same in both states (R20, R37). -/
def SameLoaded (s t : State) : Prop :=
  t.params = s.params ∧ t.imem = s.imem ∧ t.textSegment = s.textSegment ∧ t.dataSegment = s.dataSegment ∧
    t.labelAddress = s.labelAddress

/-- Every register reads the same in both states. -/
def SameRegisters (s t : State) : Prop := ∀ i, t.readReg i = s.readReg i

/-- Every data-memory cell reads the same in both states. -/
def SameCells (s t : State) : Prop := ∀ a, Memory.read t.dmem a = Memory.read s.dmem a

/-- Nothing changes but, possibly, register `d`. -/
def OnlyRegister (d : RegIdx) (s t : State) : Prop :=
  (∀ i, i ≠ d → t.readReg i = s.readReg i) ∧ t.pc = s.pc ∧ t.status = s.status ∧ SameCells s t ∧ SameLoaded s t

/-- Nothing changes but, possibly, data-memory cell `a`. -/
def OnlyCell (a : Nat) (s t : State) : Prop :=
  SameRegisters s t ∧ t.pc = s.pc ∧ t.status = s.status ∧
    (∀ b, b ≠ a → Memory.read t.dmem b = Memory.read s.dmem b) ∧ SameLoaded s t

/-- Nothing changes but, possibly, the PC. -/
def OnlyPc (s t : State) : Prop := SameRegisters s t ∧ t.status = s.status ∧ SameCells s t ∧ SameLoaded s t

/-- `STATUS` agrees with the rest of the state: a halted PC is outside the program (R186), and a fault records the
instruction before the PC, one that raises that error with that info (R133, R161, R181). -/
def StatusAgrees (s : State) : Prop :=
  match s.status with
  | .run => True
  | .halt => s.imem.length ≤ s.pc.toNat
  | .fault cause index info =>
    s.pc = index + 1#32 ∧
      ∃ w, s.imem[index.toNat]? = some w ∧
        ((cause = .unsupportedOperation ∧ executable w = false ∧ info = (w.toNat : Int)) ∨
          (cause = .memoryOutOfBounds ∧ ¬ s.inBounds info ∧
            ∃ rt rs imm, (decode w = .ok (.lw rt rs imm) ∨ decode w = .ok (.sw rt rs imm)) ∧
              info = effectiveAddress (s.readReg rs) imm))

/-- The invariant of the machine: what holds at every state of every run. -/
structure Inv (s : State) : Prop where
  /-- The parameters are in their allowed ranges (R8). -/
  params_valid : s.params.Valid
  /-- The program fits the instruction memory (R96). -/
  program_fits : s.imem.length ≤ s.params.imemMax
  /-- One word for each instruction line (R32). -/
  one_word_per_line : s.imem.length = s.textSegment.length
  /-- Every text label is an index 0..N (R31). -/
  labels_in_program : ∀ e ∈ s.labelAddress, e.2 ≤ s.imem.length
  /-- Text label names are unique (R93). -/
  text_labels_unique : (s.labelAddress.map (·.1)).Nodup
  /-- Data label names are unique (R30, R93). -/
  data_labels_unique : (s.dataSegment.map (·.1)).Nodup
  /-- The data memory keeps its canonical form. -/
  memory_wf : Memory.wf s.dmem
  /-- The data memory has `MEM_WORDS` cells (R34). -/
  cells_in_bounds : ∀ c ∈ s.dmem, c.1 < s.params.memWords
  /-- The unused slot of register 0 stays 0, so that equal machines are equal states (R21). -/
  slot_zero : s.regs[0] = 0#32
  /-- `STATUS` agrees with the rest of the state. -/
  status_agrees : StatusAgrees s

end Sys2Proof.Machine
end

