-- ==== Sys2Proof/Certificates/Slice0/Obligations.lean ====
section
/-! DEFINITION. The statements for the provers. Each docstring names the rule or the spec's decision it formalises. A
statement whose docstring names a decision D<n> of spec/92_eei_decisions.md, a passage the spec marks as derived, or an
entry of notes/assumptions rests on that choice, not on a rule of the source. -/

namespace Sys2Proof.Machine

/-! ### The step as the spec's pseudocode writes it (spec/42_engine_cycle.md R131)

A second writing of the step, on numbers only, for `StepMatchesPseudocode`. -/

/-- `W[hi:lo]` as a number (spec/00_scope.md R13). -/
def Pseudo.bits (w : Word) (hi lo : Nat) : Nat := w.toNat / 2 ^ lo % 2 ^ (hi - lo + 1)

/-- `x[i]` as an `s32` (R16). -/
def Pseudo.x (s : State) (i : Nat) : Int := (s.readReg (BitVec.ofNat 5 i)).toInt

/-- `x[i] <- v`, storing `wrap32(v)` (R16). -/
def Pseudo.setX (s : State) (i : Nat) (v : Int) : State := s.writeReg (BitVec.ofNat 5 i) (BitVec.ofInt 32 v)

/-- `sext_16` (R15). -/
def Pseudo.sext (f : Nat) : Int := if f < 2 ^ 15 then (f : Int) else (f : Int) - 2 ^ 16

/-- `raise E(idx, info)` (R168). -/
def Pseudo.raise (s : State) (e : ErrorKind) (idx : Word) (info : Int) : State := { s with status := .fault e idx info }

/-- Execute and Write-back of R131, on the state after Fetch, with the decoded fields as numbers. -/
def Pseudo.execute (s : State) (idx w : Word) (opcode rs rt rd funct imm : Nat) : State :=
  if opcode = 0 then
    if funct = 32 then Pseudo.setX s rd (Pseudo.x s rs + Pseudo.x s rt)
    else if funct = 34 then Pseudo.setX s rd (Pseudo.x s rs - Pseudo.x s rt)
    else if funct = 36 then
      s.writeReg (BitVec.ofNat 5 rd) (s.readReg (BitVec.ofNat 5 rs) &&& s.readReg (BitVec.ofNat 5 rt))
    else if funct = 37 then
      s.writeReg (BitVec.ofNat 5 rd) (s.readReg (BitVec.ofNat 5 rs) ||| s.readReg (BitVec.ofNat 5 rt))
    else if funct = 42 then Pseudo.setX s rd (if Pseudo.x s rs < Pseudo.x s rt then 1 else 0)
    else Pseudo.raise s .unsupportedOperation idx w.toNat
  else if opcode = 8 then Pseudo.setX s rt (Pseudo.x s rs + Pseudo.sext imm)
  else if opcode = 35 then
    if Pseudo.x s rs + Pseudo.sext imm < 0 ∨ (s.params.memWords : Int) ≤ Pseudo.x s rs + Pseudo.sext imm then
      Pseudo.raise s .memoryOutOfBounds idx (Pseudo.x s rs + Pseudo.sext imm)
    else Pseudo.setX s rt (Memory.read s.dmem (Pseudo.x s rs + Pseudo.sext imm).toNat).toInt
  else if opcode = 43 then
    if Pseudo.x s rs + Pseudo.sext imm < 0 ∨ (s.params.memWords : Int) ≤ Pseudo.x s rs + Pseudo.sext imm then
      Pseudo.raise s .memoryOutOfBounds idx (Pseudo.x s rs + Pseudo.sext imm)
    else
      { s with
        dmem := Memory.write s.dmem (Pseudo.x s rs + Pseudo.sext imm).toNat (BitVec.ofInt 32 (Pseudo.x s rt)) }
  else if opcode = 4 then
    if Pseudo.x s rs = Pseudo.x s rt then { s with pc := BitVec.ofInt 32 ((s.pc.toNat : Int) + Pseudo.sext imm) } else s
  else Pseudo.raise s .unsupportedOperation idx w.toNat

/-- One step of R131 from a state with `STATUS.state = RUN`. -/
def Pseudo.step (s : State) : State :=
  if s.imem.length ≤ s.pc.toNat then { s with status := .halt }
  else
    Pseudo.execute { s with pc := BitVec.ofInt 32 ((s.pc.toNat : Int) + 1) } s.pc (s.imem.getD s.pc.toNat 0#32)
      (Pseudo.bits (s.imem.getD s.pc.toNat 0#32) 31 26) (Pseudo.bits (s.imem.getD s.pc.toNat 0#32) 25 21)
      (Pseudo.bits (s.imem.getD s.pc.toNat 0#32) 20 16) (Pseudo.bits (s.imem.getD s.pc.toNat 0#32) 15 11)
      (Pseudo.bits (s.imem.getD s.pc.toNat 0#32) 5 0) (Pseudo.bits (s.imem.getD s.pc.toNat 0#32) 15 0)

/-! ### Names the statements use -/

/-- Nothing changes but `STATUS`, which becomes (FAULT, cause, index of the fetched instruction, info) (R133, R168). -/
def RaisedOnly (cause : ErrorKind) (info : Int) (s t : State) : Prop :=
  t = { s with status := .fault cause (s.pc - 1#32) info }

/-- The twelve mnemonics as the text writes them (R65). -/
def mnemonicTexts : List Text :=
  ["add".toList, "sub".toList, "and".toList, "or".toList, "slt".toList, "nor".toList] ++
  ["addi".toList, "lw".toList, "sw".toList, "beq".toList, "bne".toList, "j".toList]

/-- Two label maps give a branch at `i` and at `i'` the same distance to every label (R95). -/
def SameDistances (la la' : List (Text × Nat)) (i i' : Nat) : Prop :=
  ∀ name, (lookupLabel la name).map (fun l => branchOffset i l) = (lookupLabel la' name).map (fun l => branchOffset i' l)

/-- A line whose immediate or branch offset is `v` encodes to the word `n`, given as a number, where `v` fits 16 bits or nothing
is checked, and raises `ParseError` where it does not fit and `IMM_OVERFLOW` is `refuse` (R115; U1 of
spec/93_implementation_defined.md). -/
def EncodesTo (o : ImmOverflow) (line : Text) (ds : List (Text × Word)) (la : List (Text × Nat)) (index : Nat)
    (v n : Int) : Prop :=
  (o = .truncate ∨ (-(2 ^ 15) ≤ v ∧ v ≤ 2 ^ 15 - 1) →
    ∃ w, encodeLine o line ds la index = .ok w ∧ (w.toNat : Int) = n) ∧
  (o = .refuse → ¬ (-(2 ^ 15) ≤ v ∧ v ≤ 2 ^ 15 - 1) → encodeLine o line ds la index = .error .parseError)

/-- Operand texts joined by commas (R101). -/
def joinCommas : List Text → Text
  | [] => []
  | [t] => t
  | t :: rest => t ++ ',' :: joinCommas rest

/-- All of the text is white space. -/
def AllSpace (t : Text) : Prop := ∀ c ∈ t, isSpace c = true

/-- A separator of a data line: white space or a comma (R85). -/
def isSeparator (c : Char) : Bool := isSpace c || c == ','

/-- A token of a data line: not empty, no separator in it (R85). -/
def IsToken (t : Text) : Prop := t ≠ [] ∧ ∀ c ∈ t, isSeparator c = false

/-- The two states differ in the load-time tables only (R36). -/
def SameEngineState (s t : State) : Prop :=
  t.params = s.params ∧ t.regs = s.regs ∧ t.pc = s.pc ∧ t.dmem = s.dmem ∧ t.status = s.status ∧ t.imem = s.imem

end Sys2Proof.Machine

open Sys2Proof Sys2Proof.Machine

/-! ### Encoding and decoding -/

/-- Decoding the word of an instruction gives the instruction back, with every field at every value (R71, which the
spec derives; here for a non-zero `shamt` too). -/
def Obligations.DecodeOfEncode : Prop := ∀ i : Instr, decode (encode i) = .ok i

/-- A word that decodes is the word of its instruction: no bit of it is lost (R57 to R60, R66). -/
def Obligations.EncodeOfDecode : Prop := ∀ (w : Word) (i : Instr), decode w = .ok i → encode i = w

/-- A word belongs to a row exactly when its masked bits are the row's (R66, decision D26, and opcode_table.json; the codes
of `nor`, `bne`, `j` are from general knowledge, notes/assumptions/3.md). So no two rows overlap, every other word is of no
row, and `shamt` takes no part. -/
def Obligations.RowSelectedByMask : Prop :=
  ∀ (w : Word) (m : Mnemonic), (∃ i, decode w = .ok i ∧ i.mnemonic = m) ↔ w &&& m.mask = m.pattern

/-- R60: the seven fields of every word, as numbers. -/
def Obligations.FieldsOfEveryWord : Prop :=
  ∀ w : Word,
    (Fields.ofWord w).opcode.toNat = w.toNat / 2 ^ 26 ∧
    (Fields.ofWord w).rs.toNat = w.toNat / 2 ^ 21 % 32 ∧
    (Fields.ofWord w).rt.toNat = w.toNat / 2 ^ 16 % 32 ∧
    (Fields.ofWord w).rd.toNat = w.toNat / 2 ^ 11 % 32 ∧
    (Fields.ofWord w).shamt.toNat = w.toNat / 2 ^ 6 % 32 ∧
    (Fields.ofWord w).funct.toNat = w.toNat % 2 ^ 6 ∧
    (Fields.ofWord w).imm.toNat = w.toNat % 2 ^ 16

/-- Words written out from the encodings of spec/30_encoding.md R65 decode to the instructions they stand for, one of each
format and family. -/
def Obligations.WordsOfTheSpecDecode : Prop :=
  decode 0b00000001000010010101000000100000 = .ok (.add 10 8 9 0) ∧
  decode 0b00000001010010110100111111100010 = .ok (.sub 9 10 11 31) ∧
  decode 0b10001101001010001111111111111111 = .ok (.lw 8 9 0xFFFF) ∧
  decode 0b10101110000101000000000000000001 = .ok (.sw 20 16 1) ∧
  decode 0b00010000000010000000000000000011 = .ok (.beq 8 0 3) ∧
  decode 0b00001000000000000000000000000101 = .ok (.j 5) ∧
  decode 0 = .error (.unknownFunct 0) ∧
  decode 0xFFFFFFFF = .error (.unknownOpcode 63)

/-- R106: the packed word of an R-format instruction. -/
def Obligations.PackedRFormatWord : Prop :=
  ∀ (op : ROp) (rd rs rt : RegIdx) (index : Nat),
    (encode ((AsmInstr.r op rd rs rt).toInstr index)).toNat =
      0 * 2 ^ 26 + rs.toNat * 2 ^ 21 + rt.toNat * 2 ^ 16 + rd.toNat * 2 ^ 11 + 0 * 2 ^ 6 + op.funct.toNat

/-- R114: the packed word of `addi`, `lw`, `sw`, for every integer `v`. -/
def Obligations.PackedIFormatWord : Prop :=
  ∀ (op : IOp) (rt rs : RegIdx) (v : Int) (index : Nat),
    ((encode ((AsmInstr.i op rt rs v).toInstr index)).toNat : Int) =
      op.opcode.toNat * 2 ^ 26 + rs.toNat * 2 ^ 21 + rt.toNat * 2 ^ 16 + v % 2 ^ 16

/-- R108: the packed word of a branch at `index` to a label at `target`, for every distance. -/
def Obligations.PackedBranchWord : Prop :=
  ∀ (op : BOp) (rt rs : RegIdx) (target index : Nat),
    ((encode ((AsmInstr.b op rt rs target).toInstr index)).toNat : Int) =
      op.opcode.toNat * 2 ^ 26 + rs.toNat * 2 ^ 21 + rt.toNat * 2 ^ 16 +
        ((target : Int) - ((index : Int) + 1)) % 2 ^ 16

/-- The packed word of `j` to a label at `target`, for every label index (R111; the low 26 bits are the spec's decision D12,
the opcode 2 is from general knowledge, notes/assumptions/3.md). -/
def Obligations.PackedJumpWord : Prop :=
  ∀ target index : Nat, (encode ((AsmInstr.j target).toInstr index)).toNat = 2 * 2 ^ 26 + target % 2 ^ 26

/-! ### Registers -/

/-- R21 and R128: register 0 reads 0, after every instruction too, and discards writes; every other register holds what was
last written to it, and a write changes that register alone. -/
def Obligations.RegisterZeroIsHardwired : Prop :=
  ∀ (s : State) (i : RegIdx) (v : Word),
    s.readReg 0#5 = 0#32 ∧ s.writeReg 0#5 v = s ∧ (i ≠ 0#5 → (s.writeReg i v).readReg i = v) ∧
    OnlyRegister i s (s.writeReg i v) ∧
    ∀ (ins : Instr) (t : State), exec ins s = .next t → t.readReg 0#5 = 0#32 ∧ t.regs[0] = s.regs[0]

/-! ### R-format instructions -/

/-- `add` completes for every state and operands and writes the `s32` congruent to the sum of the sources modulo 2^32, and
nothing else (R139; the wrap is the spec's decision D5). -/
def Obligations.AddWritesWrappedSum : Prop :=
  ∀ (s : State) (rd rs rt : RegIdx) (shamt : BitVec 5),
    ∃ t, exec (.add rd rs rt shamt) s = .next t ∧
      (rd ≠ 0#5 → (t.readReg rd).toInt = Int.bmod ((s.readReg rs).toInt + (s.readReg rt).toInt) (2 ^ 32)) ∧
      (rd = 0#5 → t = s) ∧ OnlyRegister rd s t

/-- `sub` completes for every state and operands and writes the `s32` congruent to `x[rs] - x[rt]` modulo 2^32, and nothing
else (R140; the wrap is the spec's decision D5). -/
def Obligations.SubWritesWrappedDifference : Prop :=
  ∀ (s : State) (rd rs rt : RegIdx) (shamt : BitVec 5),
    ∃ t, exec (.sub rd rs rt shamt) s = .next t ∧
      (rd ≠ 0#5 → (t.readReg rd).toInt = Int.bmod ((s.readReg rs).toInt - (s.readReg rt).toInt) (2 ^ 32)) ∧
      (rd = 0#5 → t = s) ∧ OnlyRegister rd s t

/-- R141, with its encoding: `and` writes, bit by bit, the and of its sources, and nothing else. -/
def Obligations.AndWritesBitwiseAnd : Prop :=
  ∀ (s : State) (rd rs rt : RegIdx) (shamt : BitVec 5),
    decode (0b000000#6 ++ rs ++ rt ++ rd ++ shamt ++ 0b100100#6) = .ok (.and rd rs rt shamt) ∧
    ∃ t, exec (.and rd rs rt shamt) s = .next t ∧
      (rd ≠ 0#5 → ∀ k, (t.readReg rd).getLsbD k = ((s.readReg rs).getLsbD k && (s.readReg rt).getLsbD k)) ∧
      (rd = 0#5 → t = s) ∧ OnlyRegister rd s t

/-- R142, with its encoding: `or` writes, bit by bit, the or of its sources, and nothing else. -/
def Obligations.OrWritesBitwiseOr : Prop :=
  ∀ (s : State) (rd rs rt : RegIdx) (shamt : BitVec 5),
    decode (0b000000#6 ++ rs ++ rt ++ rd ++ shamt ++ 0b100101#6) = .ok (.or rd rs rt shamt) ∧
    ∃ t, exec (.or rd rs rt shamt) s = .next t ∧
      (rd ≠ 0#5 → ∀ k, (t.readReg rd).getLsbD k = ((s.readReg rs).getLsbD k || (s.readReg rt).getLsbD k)) ∧
      (rd = 0#5 → t = s) ∧ OnlyRegister rd s t

/-- R143, with its encoding: `slt` writes 1 if `x[rs] < x[rt]` as signed integers, else 0, and nothing else. -/
def Obligations.SltWritesSignedLess : Prop :=
  ∀ (s : State) (rd rs rt : RegIdx) (shamt : BitVec 5),
    decode (0b000000#6 ++ rs ++ rt ++ rd ++ shamt ++ 0b101010#6) = .ok (.slt rd rs rt shamt) ∧
    ∃ t, exec (.slt rd rs rt shamt) s = .next t ∧
      (rd ≠ 0#5 → (t.readReg rd).toInt = if (s.readReg rs).toInt < (s.readReg rt).toInt then 1 else 0) ∧
      (rd = 0#5 → t = s) ∧ OnlyRegister rd s t

/-! ### Immediate and memory instructions -/

/-- `addi` completes for every state and operands and writes the `s32` congruent to `x[rs]` plus the two's-complement
immediate modulo 2^32, and nothing else (R147; the wrap is the spec's decision D5). -/
def Obligations.AddiWritesWrappedSum : Prop :=
  ∀ (s : State) (rt rs : RegIdx) (imm : Imm16),
    ∃ t, exec (.addi rt rs imm) s = .next t ∧
      (rt ≠ 0#5 → (t.readReg rt).toInt = Int.bmod ((s.readReg rs).toInt + imm.toInt) (2 ^ 32)) ∧
      (rt = 0#5 → t = s) ∧ OnlyRegister rt s t

/-- The effective address is the exact sum of the `s32` base and the two's-complement offset, and for every allowed
`MEM_WORDS` the sum wrapped modulo 2^32 is in bounds exactly when it is, and is then the same cell (R40; the sign extension
and the exact sum are the spec's decisions D6 and D7, the equivalence its derivation). -/
def Obligations.WrappedAddressAgreesInBounds : Prop :=
  ∀ (s : State) (base : Word) (imm : Imm16), s.params.Valid →
    effectiveAddress base imm = base.toInt + imm.toInt ∧
    (s.inBounds (effectiveAddress base imm) ↔ s.inBounds (base + imm.signExtend 32).toInt) ∧
    (s.inBounds (effectiveAddress base imm) → effectiveAddress base imm = (base + imm.signExtend 32).toInt)

/-- `lw` with its address in bounds completes and writes the addressed cell, whole, to `x[rt]`, and changes nothing else,
every cell included (R148; the address is by the spec's decisions D6 and D7). -/
def Obligations.LwLoadsTheCell : Prop :=
  ∀ (s : State) (rt rs : RegIdx) (imm : Imm16), s.inBounds (effectiveAddress (s.readReg rs) imm) →
    ∃ t, exec (.lw rt rs imm) s = .next t ∧
      (rt ≠ 0#5 → t.readReg rt = Memory.read s.dmem (effectiveAddress (s.readReg rs) imm).toNat) ∧
      (rt = 0#5 → t = s) ∧ OnlyRegister rt s t

/-- `sw` with its address in bounds completes and puts `x[rt]`, whole, into the addressed cell, and changes nothing else: every
other cell reads as before (R149; the address is by the spec's decisions D6 and D7). The premise on the memory is part of
the invariant. -/
def Obligations.SwStoresTheRegister : Prop :=
  ∀ (s : State) (rt rs : RegIdx) (imm : Imm16), Memory.wf s.dmem → s.inBounds (effectiveAddress (s.readReg rs) imm) →
    ∃ t, exec (.sw rt rs imm) s = .next t ∧
      Memory.read t.dmem (effectiveAddress (s.readReg rs) imm).toNat = s.readReg rt ∧
      OnlyCell (effectiveAddress (s.readReg rs) imm).toNat s t

/-- `lw` and `sw` with an address outside `0..MEM_WORDS-1` raise `MemoryOutOfBounds` with that address and change nothing
but `STATUS`, for `rt = 0` too (R41 to R43; what STATUS records is by the spec's decisions D15 and D16, the index by
notes/assumptions/6.md). -/
def Obligations.OutOfBoundsAccessRaises : Prop :=
  ∀ (s : State) (rt rs : RegIdx) (imm : Imm16),
    (effectiveAddress (s.readReg rs) imm < 0 ∨ (s.params.memWords : Int) ≤ effectiveAddress (s.readReg rs) imm) →
    (∃ t, exec (.lw rt rs imm) s = .next t ∧
      RaisedOnly .memoryOutOfBounds (effectiveAddress (s.readReg rs) imm) s t) ∧
    (∃ t, exec (.sw rt rs imm) s = .next t ∧
      RaisedOnly .memoryOutOfBounds (effectiveAddress (s.readReg rs) imm) s t)

/-- `sw rt, k(rs)` and then `lw rt2, k(rs)` with `rt2 != 0` leaves `x[rt2] = x[rt]` (R151, which the spec derives). -/
def Obligations.StoreThenLoadReturnsTheValue : Prop :=
  ∀ (s : State) (rt rt2 rs : RegIdx) (imm : Imm16), Memory.wf s.dmem →
    s.inBounds (effectiveAddress (s.readReg rs) imm) → rt2 ≠ 0#5 →
    ∃ t u, exec (.sw rt rs imm) s = .next t ∧ exec (.lw rt2 rs imm) t = .next u ∧ u.readReg rt2 = s.readReg rt

/-- `lw rt, k(rs)` and then `sw rt, k(rs)` with `rt != 0` and `rt != rs` leaves every cell as it was (R151, which the spec
derives). -/
def Obligations.LoadThenStoreRoundTrips : Prop :=
  ∀ (s : State) (rt rs : RegIdx) (imm : Imm16), Memory.wf s.dmem →
    s.inBounds (effectiveAddress (s.readReg rs) imm) → rt ≠ 0#5 → rt ≠ rs →
    ∃ t u, exec (.lw rt rs imm) s = .next t ∧ exec (.sw rt rs imm) t = .next u ∧ SameCells s u ∧
      u.readReg rt = Memory.read s.dmem (effectiveAddress (s.readReg rs) imm).toNat

/-! ### Control transfer -/

/-- `beq` completes for every state and operands: with equal registers the PC becomes the already-advanced PC plus the
two's-complement offset, modulo 2^32; with unequal ones nothing changes. It changes nothing but the PC (R153; the sign
extension is the spec's decision D6, the modulus its decision D8). -/
def Obligations.BeqBranchesOnEqual : Prop :=
  ∀ (s : State) (rt rs : RegIdx) (imm : Imm16),
    ∃ t, exec (.beq rt rs imm) s = .next t ∧
      (s.readReg rs = s.readReg rt → (t.pc.toNat : Int) = ((s.pc.toNat : Int) + imm.toInt) % 2 ^ 32) ∧
      (s.readReg rs ≠ s.readReg rt → t = s) ∧ OnlyPc s t

/-- `nor`, `bne` and `j` raise `UnsupportedOperation` with their word as the info, whatever their fields and the state are,
and change nothing but `STATUS` (R144, R155, R156; what STATUS records is by the spec's decisions D15 and D16, the index by
notes/assumptions/6.md, and the three codes inside the words by notes/assumptions/3.md). -/
def Obligations.EncodedOnlyInstructionsRaise : Prop :=
  ∀ (s : State) (rd rs rt : RegIdx) (shamt : BitVec 5) (imm : Imm16) (target : Target26),
    (∃ t, exec (.nor rd rs rt shamt) s = .next t ∧
      RaisedOnly .unsupportedOperation ((encode (.nor rd rs rt shamt)).toNat : Int) s t) ∧
    (∃ t, exec (.bne rt rs imm) s = .next t ∧
      RaisedOnly .unsupportedOperation ((encode (.bne rt rs imm)).toNat : Int) s t) ∧
    (∃ t, exec (.j target) s = .next t ∧
      RaisedOnly .unsupportedOperation ((encode (.j target)).toNat : Int) s t)

/-- The branch law: a `beq` packed at index `i` for a label at index `l` and fetched at `pc = i` leaves `pc = l` when its
registers are equal and the distance fits 16 bits; when it does not fit, `pc` is the truncated target; with unequal registers
`pc = i + 1` (R154 and R119, which rest on the spec's decisions D6, D8 and D11). -/
def Obligations.BranchReachesItsLabel : Prop :=
  ∀ (s : State) (rt rs : RegIdx) (i l : Nat), s.status = .run → s.pc = BitVec.ofNat 32 i → i < 2 ^ 31 → l ≤ 2 ^ 31 →
    s.fetch = some (encode ((AsmInstr.b .beq rt rs l).toInstr i)) →
    ∃ t, step s = .next t ∧
      (s.readReg rs ≠ s.readReg rt → t.pc.toNat = i + 1) ∧
      (s.readReg rs = s.readReg rt → -(2 ^ 15) ≤ (l : Int) - (i + 1) → (l : Int) - (i + 1) < 2 ^ 15 → t.pc.toNat = l) ∧
      (s.readReg rs = s.readReg rt →
        (t.pc.toNat : Int) = ((i : Int) + 1 + Int.bmod ((l : Int) - (i + 1)) (2 ^ 16)) % 2 ^ 32)

/-- A `beq` with offset -1 whose registers hold equal values repeats for ever: the step leaves the whole state as it is, and so
does a run of any length (R134, which the spec derives; the PC arithmetic is its decision D8). -/
def Obligations.SelfBranchRepeats : Prop :=
  ∀ (s : State) (rt rs : RegIdx), s.status = .run → s.fetch = some (encode (.beq rt rs 0xFFFF)) → s.readReg rs = s.readReg rt →
    step s = .next s ∧ ∀ n, run n s = s

/-! ### The step -/

/-- A step of a running engine runs the instruction its fetched word decodes to, on the state whose PC is one further
(R123, R126). -/
def Obligations.StepRunsTheDecodedInstruction : Prop :=
  ∀ (s : State) (w : Word) (i : Instr), s.status = .run → s.imem[s.pc.toNat]? = some w → decode w = .ok i →
    step s = exec i { s with pc := s.pc + 1#32 }

/-- R130: a running engine that fetches a word outside the nine rows of the dispatch table raises `UnsupportedOperation`: it
neither does nothing nor goes on running. -/
def Obligations.WordsOutsideTheTableRaise : Prop :=
  ∀ (s : State) (w : Word), s.status = .run → s.fetch = some w →
    (∀ m, executed m = true → w &&& m.mask ≠ m.pattern) →
    ∃ t index info, step s = .next t ∧ t.status = .fault .unsupportedOperation index info

/-- R124: a fetch at `pc >= N` sets `STATUS.state` to `HALT` and changes nothing else, `HALT` is set by nothing else, a running
engine never stops without a next state, and a halted or faulted engine takes no further step. -/
def Obligations.ExhaustionHalts : Prop :=
  ∀ s : State,
    (s.status = .run → s.imem.length ≤ s.pc.toNat → step s = .next { s with status := .halt }) ∧
    (∀ t, step s = .next t → t.status = .halt → s.imem.length ≤ s.pc.toNat) ∧
    (s.status = .run → ∃ t, step s = .next t) ∧ (s.status ≠ .run → ∀ t, step s ≠ .next t)

/-- A running engine always has a next state, and only a running engine has one: no word and no operand ends a run in a
refusal (R124, R130, R167; the stop of a stopped engine is notes/assumptions/5.md). -/
def Obligations.RunningEngineAlwaysSteps : Prop := ∀ s : State, (∃ t, step s = .next t) ↔ s.status = .run

/-- The step of a running engine is the step of R131's pseudocode, written on numbers (the spec's decisions D5 to D8, D15,
D16 and D26 are in that pseudocode). -/
def Obligations.StepMatchesPseudocode : Prop := ∀ s : State, s.status = .run → step s = .next (Pseudo.step s)

/-- R188: no instruction writes the instruction memory. No step changes a load-time object or a parameter either. -/
def Obligations.StepKeepsLoadedObjects : Prop := ∀ s t : State, step s = .next t → SameLoaded s t

/-- The engine never consults the load-time tables: from states that differ in them only, the steps agree in everything
else (R36). -/
def Obligations.EngineIgnoresLoadTables : Prop :=
  ∀ s s' t : State, SameEngineState s s' → step s = .next t → ∃ t', step s' = .next t' ∧ SameEngineState t t'

/-- One step changes no cell or no register; a register that changes is the destination of the decoded fetched word, and a cell
that changes is the one the word stores to, and holds what it stores (R126). -/
def Obligations.StepChangesAtMostOnePlace : Prop :=
  ∀ s t : State, Memory.wf s.dmem → step s = .next t →
    (SameCells s t ∨ SameRegisters s t) ∧
    (∀ d, t.readReg d ≠ s.readReg d → ∃ w i, s.fetch = some w ∧ decode w = .ok i ∧ destination i = some d) ∧
    (∀ a, Memory.read t.dmem a ≠ Memory.read s.dmem a →
      ∃ w i, s.fetch = some w ∧ decode w = .ok i ∧ storeOf s i = some (a, Memory.read t.dmem a))

/-- Only a fetched `sw` changes the data memory (R34, R150). -/
def Obligations.OnlySwChangesMemory : Prop :=
  ∀ s t : State, step s = .next t → t.dmem ≠ s.dmem →
    ∃ rt rs imm, s.fetch = some (encode (.sw rt rs imm)) ∧
      t.dmem = Memory.write s.dmem (effectiveAddress (s.readReg rs) imm).toNat (s.readReg rt)

/-- Only a taken `beq` leaves the PC anywhere but one further, and an exhausted fetch leaves it where it is (R26, R157). -/
def Obligations.OnlyBeqBranches : Prop :=
  ∀ s t : State, step s = .next t → t.pc ≠ s.pc + 1#32 →
    (s.fetch = none ∧ t.pc = s.pc) ∨
    (∃ rt rs imm, s.fetch = some (encode (.beq rt rs imm)) ∧ s.readReg rs = s.readReg rt)

/-- Faults are precise: a step that ends in `FAULT` changes nothing but the PC advance and `STATUS`, which records the index
of the instruction (R133 and R169; the spec's decision D16). -/
def Obligations.FaultsArePrecise : Prop :=
  ∀ (s t : State) (cause : ErrorKind) (index : Word) (info : Int), step s = .next t → t.status = .fault cause index info →
    index = s.pc ∧ t = { s with pc := s.pc + 1#32, status := .fault cause s.pc info }

/-- A run that has ended stays as it is under every larger bound (R186). -/
def Obligations.EndedRunIsFinal : Prop :=
  ∀ (s : State) (n k : Nat), (run n s).status ≠ .run → run (n + k) s = run n s

/-- The tuple of a cycle tells all that the cycle did to registers, cells and PC, with the PC before fetch and the fields of
the fetched word; there is a tuple exactly when a running engine fetches a word (R136, R180). -/
def Obligations.ObservationTellsTheDelta : Prop :=
  ∀ s : State, Memory.wf s.dmem →
    ((∃ o, observe s = some o) ↔ s.status = .run ∧ s.fetch ≠ none) ∧
    ∀ o, observe s = some o →
      ∃ w t, s.fetch = some w ∧ step s = .next t ∧ o.idx = s.pc ∧ o.fields = Fields.ofWord w ∧ o.pcAfter = t.pc ∧
        (∀ i, t.readReg i = match o.regWrite with
          | some (d, v) => if i = d then v else s.readReg i
          | none => s.readReg i) ∧
        (∀ a, Memory.read t.dmem a = match o.memWrite with
          | some (b, v) => if a = b then v else Memory.read s.dmem a
          | none => Memory.read s.dmem a) ∧
        (∀ v, o.regWrite ≠ some (0#5, v))

/-! ### The invariant -/

/-- The invariant holds at reset, with nothing loaded (notes/assumptions/11.md). -/
def Obligations.InvariantAtReset : Prop := Inv State.reset

/-- The invariant holds at the start of every loaded program, for every allowed parameter value (R183, R38). -/
def Obligations.InvariantAfterLoad : Prop :=
  ∀ (p : Params) (lines : List Text) (s : State), p.Valid → load p lines = .ok s → Inv s

/-- Every step keeps the invariant, from every state that has it, reached or not. -/
def Obligations.StepKeepsInvariant : Prop := ∀ s t : State, Inv s → step s = .next t → Inv t

/-- Memories in canonical form that read the same in every cell are the same data (notes/assumptions/2.md). -/
def Obligations.CanonicalMemoryIsUnique : Prop :=
  ∀ m n : Memory, Memory.wf m → Memory.wf n → (∀ a, Memory.read m a = Memory.read n a) → m = n

/-! ### Resolver -/

/-- R84: a blank line changes nothing at all, and a directive line leaves the text segment and both label maps as they
are, so it consumes no index. -/
def Obligations.BlankAndDirectiveLinesAddNothing : Prop :=
  ∀ (line : Text) (k : Scan),
    (strip line = [] → scanLine line k = .ok k) ∧
    (strip line = ".data".toList ∨ strip line = ".text".toList →
      ∃ k', scanLine line k = .ok k' ∧ k'.textSegment = k.textSegment ∧ k'.labelAddress = k.labelAddress ∧
        k'.dataSegment = k.dataSegment)

/-- A text line with a `:` records its label at the current length of the text segment and appends the instruction without the
label prefix, or nothing where it is only a label; one without a `:` is appended as it stands; one with a name that is no label
name or not new raises `ParseError` (R88 to R90, R92, R93; which names are labels and that a name is new is the spec's decision
D19, which characters are white space notes/assumptions/7.md). -/
def Obligations.LabelTakesTheCurrentLength : Prop :=
  ∀ k : Scan, k.current = some .text →
    (∀ before' name between body : Text, AllSpace before' → AllSpace between → isLabelName name = true →
      name ∉ k.labelAddress.map (·.1) →
      (strip body ≠ [] → scanLine (before' ++ name ++ between ++ ':' :: body) k = .ok { k with
        labelAddress := k.labelAddress ++ [(name, k.textSegment.length)]
        textSegment := k.textSegment ++ [strip body] }) ∧
      (strip body = [] → scanLine (before' ++ name ++ between ++ ':' :: body) k = .ok { k with
        labelAddress := k.labelAddress ++ [(name, k.textSegment.length)] })) ∧
    (∀ head body : Text, ':' ∉ head → isLabelName (strip head) = false ∨ strip head ∈ k.labelAddress.map (·.1) →
      scanLine (head ++ ':' :: body) k = .error (.parseLine (head ++ ':' :: body))) ∧
    (∀ line : Text, ':' ∉ line → strip line ≠ [] → strip line ≠ ".data".toList → strip line ≠ ".text".toList →
      scanLine line k = .ok { k with textSegment := k.textSegment ++ [strip line] })

/-- A data line: the label, new in the map, is declared with the value of the token after the directive, which is skipped, and
later tokens are ignored. A line with no `:`, with no value token, with a value token that is no decimal integer of 32 signed
bits, or with a name that is no label name or not new raises `ParseError` (R85 to R87, R92, R93; the directive is the spec's
decision D27, the value D21, the names D19, the characters that are white space notes/assumptions/7.md). -/
def Obligations.DataLineDeclaresItsFirstValue : Prop :=
  ∀ k : Scan, k.current = some .data →
    (∀ before' name between gap directive gap' value rest : Text, AllSpace before' → AllSpace between → AllSpace gap →
      isLabelName name = true → name ∉ k.dataSegment.map (·.1) → IsToken directive → gap' ≠ [] →
      (∀ c ∈ gap', isSeparator c = true) → IsToken value → (∀ c ∈ rest.head?, isSeparator c = true) →
      (∀ v : Int, decimalInt value = some v → -(2 ^ 31) ≤ v → v ≤ 2 ^ 31 - 1 →
        scanLine (before' ++ name ++ between ++ ':' :: (gap ++ directive ++ gap' ++ value ++ rest)) k =
          .ok { k with dataSegment := k.dataSegment ++ [(name, BitVec.ofInt 32 v)] }) ∧
      ((∀ v : Int, decimalInt value = some v → ¬ (-(2 ^ 31) ≤ v ∧ v ≤ 2 ^ 31 - 1)) →
        scanLine (before' ++ name ++ between ++ ':' :: (gap ++ directive ++ gap' ++ value ++ rest)) k =
          .error (.parseLine (before' ++ name ++ between ++ ':' :: (gap ++ directive ++ gap' ++ value ++ rest))))) ∧
    (∀ head gap directive gap' : Text, ':' ∉ head → AllSpace gap → (∀ c ∈ directive, isSeparator c = false) →
      (∀ c ∈ gap', isSeparator c = true) →
      scanLine (head ++ ':' :: (gap ++ directive ++ gap')) k = .error (.parseLine (head ++ ':' :: (gap ++ directive ++ gap')))) ∧
    (∀ head body : Text, ':' ∉ head → isLabelName (strip head) = false ∨ strip head ∈ k.dataSegment.map (·.1) →
      scanLine (head ++ ':' :: body) k = .error (.parseLine (head ++ ':' :: body))) ∧
    (∀ line : Text, ':' ∉ line → strip line ≠ [] → strip line ≠ ".data".toList → strip line ≠ ".text".toList →
      scanLine line k = .error (.parseLine line))

/-- After a resolution every label is an index 0..N, no name is declared twice in one map, and N is at most `IMEM_MAX` (R31, R93
and R96; uniqueness as an error is the spec's decision D19, the limit its decision D8). -/
def Obligations.ResolvedMapsAreSound : Prop :=
  ∀ (p : Params) (lines : List Text) (k : Scan), resolve p lines = .ok k →
    (∀ e ∈ k.labelAddress, e.2 ≤ k.textSegment.length) ∧ (k.labelAddress.map (·.1)).Nodup ∧
    (k.dataSegment.map (·.1)).Nodup ∧ k.textSegment.length ≤ p.imemMax

/-! ### Encoder -/

/-- A line encodes to the word of a well-formed instruction: its `shamt` is 0 in the R-format (R71, which the spec derives). -/
def Obligations.EncoderEmitsWellFormedWords : Prop :=
  ∀ (o : ImmOverflow) (line : Text) (ds : List (Text × Word)) (la : List (Text × Nat)) (index : Nat) (w : Word),
    encodeLine o line ds la index = .ok w → ∃ i, decode w = .ok i ∧ i.wf = true ∧ some i.mnemonic = findMnemonic (lineMnemonic line)

/-- The mnemonic of a line is its text up to the first white space and its operands are the stripped pieces between commas; and
the operand tokens go to the fields of the word: `rd, rs, rt` in the R-format, `rt, rs, label` in a branch, `rt, rs, imm` and
`rt, off(base)` and the two single-token forms of `addi`, `lw`, `sw`, `label` of `j`; for every line of the form, at every index
(R101, R105, R107, R110, R113, R71; white space, truncation and the 26 bits are the spec's decisions D18, D11 and D12, the opcode
of `j` and of `bne` and the funct of `nor` notes/assumptions/3.md, the white-space characters notes/assumptions/7.md). -/
def Obligations.OperandTokensFillTheirFields : Prop :=
  (∀ (before' name gap : Text) (pieces : List Text), AllSpace before' → name ≠ [] → (∀ c ∈ name, isSpace c = false) →
    gap ≠ [] → AllSpace gap → (∀ p ∈ pieces, ',' ∉ p) →
    lineMnemonic (before' ++ name ++ gap ++ joinCommas pieces) = name ∧
    (strip (joinCommas pieces) ≠ [] → lineOperands (before' ++ name ++ gap ++ joinCommas pieces) = pieces.map strip) ∧
    (strip (joinCommas pieces) = [] → lineOperands (before' ++ name ++ gap ++ joinCommas pieces) = []) ∧
    lineMnemonic (before' ++ name) = name ∧ lineOperands (before' ++ name) = []) ∧
  ∀ (o : ImmOverflow) (line : Text) (ds : List (Text × Word)) (la : List (Text × Nat)) (index : Nat) (op0 op1 op2 : Text),
    (∀ op rd rs rt, findMnemonic (lineMnemonic line) = some (.r op) → lineOperands line = [op0, op1, op2] →
      parseRegister op0 = some rd → parseRegister op1 = some rs → parseRegister op2 = some rt →
      EncodesTo o line ds la index 0 (rs.toNat * 2 ^ 21 + rt.toNat * 2 ^ 16 + rd.toNat * 2 ^ 11 + op.funct.toNat)) ∧
    (∀ op rt rs (target : Nat), findMnemonic (lineMnemonic line) = some (.b op) → lineOperands line = [op0, op1, op2] →
      parseRegister op0 = some rt → parseRegister op1 = some rs → lookupLabel la op2 = some target →
      EncodesTo o line ds la index ((target : Int) - (index + 1))
        (op.opcode.toNat * 2 ^ 26 + rs.toNat * 2 ^ 21 + rt.toNat * 2 ^ 16 + ((target : Int) - (index + 1)) % 2 ^ 16)) ∧
    (∀ op rt rs v, findMnemonic (lineMnemonic line) = some (.i op) → lineOperands line = [op0, op1, op2] →
      parseRegister op0 = some rt → parseRegister op1 = some rs → decimalInt op2 = some v →
      EncodesTo o line ds la index v (op.opcode.toNat * 2 ^ 26 + rs.toNat * 2 ^ 21 + rt.toNat * 2 ^ 16 + v % 2 ^ 16)) ∧
    (∀ op rt rs v off base tail, findMnemonic (lineMnemonic line) = some (.i op) →
      lineOperands line = [op0, off ++ '(' :: (base ++ ')' :: tail)] → '(' ∉ off → ')' ∉ base → AllSpace tail →
      parseRegister op0 = some rt → decimalInt (strip off) = some v → parseRegister (strip base) = some rs →
      EncodesTo o line ds la index v (op.opcode.toNat * 2 ^ 26 + rs.toNat * 2 ^ 21 + rt.toNat * 2 ^ 16 + v % 2 ^ 16)) ∧
    (∀ op rt v, findMnemonic (lineMnemonic line) = some (.i op) → lineOperands line = [op0, op1] → '(' ∉ op1 →
      parseRegister op0 = some rt → lookupLabel ds op1 = some v →
      EncodesTo o line ds la index v.toInt (op.opcode.toNat * 2 ^ 26 + rt.toNat * 2 ^ 16 + v.toInt % 2 ^ 16)) ∧
    (∀ op rt rs, findMnemonic (lineMnemonic line) = some (.i op) → lineOperands line = [op0, op1] → '(' ∉ op1 →
      parseRegister op0 = some rt → lookupLabel ds op1 = none → parseRegister op1 = some rs →
      EncodesTo o line ds la index 0 (op.opcode.toNat * 2 ^ 26 + rs.toNat * 2 ^ 21 + rt.toNat * 2 ^ 16)) ∧
    (∀ target : Nat, findMnemonic (lineMnemonic line) = some .j → lineOperands line = [op0] → lookupLabel la op0 = some target →
      EncodesTo o line ds la index 0 (2 * 2 ^ 26 + target % 2 ^ 26))

/-- A line raises `UnsupportedInstruction` exactly when its mnemonic is none of the twelve, before its operands are looked at
(R102; the closed table is the spec's decision D2, the case its decision D18). -/
def Obligations.UnknownMnemonicIsUnsupported : Prop :=
  ∀ (o : ImmOverflow) (line : Text) (ds : List (Text × Word)) (la : List (Text × Nat)) (index : Nat) (name : Text),
    encodeLine o line ds la index = .error (.unsupportedInstruction name) ↔
      name = lineMnemonic line ∧ lineMnemonic line ∉ mnemonicTexts

/-- A register token is `$` and one of the 32 names, or `$` and a decimal numeral 0 to 31, and nothing else (R103; the names
are the spec's decision D3, notes/assumptions/3.md, the numerals its decision D31). -/
def Obligations.RegisterTokens : Prop :=
  ∀ (tok : Text) (r : RegIdx),
    parseRegister tok = some r ↔
      (∃ name, registerNames[r.toNat]? = some name ∧ tok = '$' :: name) ∨
      (∃ digits, tok = '$' :: digits ∧ decimalNat digits = some r.toNat)

/-- Form (c): a single token that is a data label stands for its value over register 0; a single token that is none stands for
a base register with immediate 0, whatever text labels there are (R113, R150; which map a name is looked up in is the spec's
decision D28). -/
def Obligations.DataLabelShorthand : Prop :=
  ∀ (ds : List (Text × Word)) (op : IOp) (reg tok : Text) (rt : RegIdx),
    parseRegister reg = some rt → hasChar '(' tok = false →
    (∀ v, lookupLabel ds tok = some v → iOperands ds op [reg, tok] = .ok (.i op rt 0#5 v.toInt)) ∧
    (∀ rs, lookupLabel ds tok = none → parseRegister tok = some rs → iOperands ds op [reg, tok] = .ok (.i op rt rs 0)) ∧
    (lookupLabel ds tok = none → parseRegister tok = none → iOperands ds op [reg, tok] = .error (.invalidRegister tok))

/-- A branch line depends on its label through the distance only: label maps with the same distances give the same word or the
same error, wherever the label stands (R95, which the spec derives). -/
def Obligations.BranchDependsOnDistanceOnly : Prop :=
  ∀ (o : ImmOverflow) (line : Text) (ds : List (Text × Word)) (la la' : List (Text × Nat)) (i i' : Nat) (op : BOp),
    findMnemonic (lineMnemonic line) = some (.b op) → SameDistances la la' i i' →
    encodeLine o line ds la i = encodeLine o line ds la' i'

/-- R118: the program is encoded line by line, each at its own index, and the first line that raises an error aborts the
phase: there is no program and no start of the engine then. -/
def Obligations.ProgramEncodesLineByLine : Prop :=
  ∀ (o : ImmOverflow) (k : Scan),
    (∀ program, encodeProgram o k = .ok program ↔
      program.length = k.textSegment.length ∧
      ∀ (i : Nat) (line : Text) (w : Word), k.textSegment[i]? = some line → program[i]? = some w →
        encodeLine o line k.dataSegment k.labelAddress i = .ok w) ∧
    (∀ e, encodeProgram o k = .error e ↔
      ∃ i line e', k.textSegment[i]? = some line ∧ e = .encoding i line e' ∧
        encodeLine o line k.dataSegment k.labelAddress i = .error e' ∧
        ∀ (j : Nat) (line' : Text), j < i → k.textSegment[j]? = some line' →
          ∃ w, encodeLine o line' k.dataSegment k.labelAddress j = .ok w) ∧
    (∀ (p : Params) (lines : List Text) (e : LoadError), resolve p lines = .ok k → encodeProgram p.immOverflow k = .error e →
      load p lines = .error e)

/-- A program loaded under `IMM_OVERFLOW = refuse` loads to the same state under `truncate`, but for the parameter
(spec/93_implementation_defined.md U1; the default is the spec's decision D11). -/
def Obligations.RefuseIsConservative : Prop :=
  ∀ (p : Params) (lines : List Text) (s : State), load { p with immOverflow := .refuse } lines = .ok s →
    load { p with immOverflow := .truncate } lines = .ok { s with params := { p with immOverflow := .truncate } }

/-! ### Load and reset -/

/-- R22: at execution start every register holds 0, and a register that no cycle of a run has written still reads 0 after it. -/
def Obligations.RegistersStartAtZero : Prop :=
  ∀ (p : Params) (lines : List Text) (s : State), load p lines = .ok s →
    (∀ i, s.readReg i = 0#32) ∧
    ∀ (i : RegIdx) (n : Nat), (∀ m o v, m < n → observe (run m s) = some o → o.regWrite ≠ some (i, v)) → (run n s).readReg i = 0#32

/-- R47: after a load, for every data label with value `v`, cell `v` holds `v`; and seeding writes no other cell. -/
def Obligations.SeededCellsHoldTheirAddress : Prop :=
  (∀ (p : Params) (lines : List Text) (s : State), load p lines = .ok s →
    ∀ e ∈ s.dataSegment, s.inBounds e.2.toInt ∧ Memory.read s.dmem e.2.toInt.toNat = e.2) ∧
  (∀ (ds : List (Text × Word)) (s t : State), Memory.wf s.dmem → seed ds s = .ok t →
    ∀ a : Nat, (∀ e ∈ ds, e.2.toInt ≠ (a : Int)) → Memory.read t.dmem a = Memory.read s.dmem a)

/-- The rest of the state at execution start: PC 0 (the spec's decision D8), `STATUS = RUN` (D25), every cell that is no data
value 0 (D9), the instruction memory the encoded program of the finished resolution (R38, R183). -/
def Obligations.LoadedStateIsTheResetState : Prop :=
  ∀ (p : Params) (lines : List Text) (s : State), load p lines = .ok s →
    s.pc = 0#32 ∧ s.status = .run ∧ s.params = p ∧
    (∀ a : Nat, (∀ e ∈ s.dataSegment, e.2.toInt ≠ (a : Int)) → Memory.read s.dmem a = 0#32) ∧
    ∃ k, resolve p lines = .ok k ∧ encodeProgram p.immOverflow k = .ok s.imem ∧ s.textSegment = k.textSegment ∧
      s.labelAddress = k.labelAddress ∧ s.dataSegment = k.dataSegment

/-- A data value outside the memory is a load error, `MemoryOutOfBounds` with the first such value, and there is no run (R48;
the spec's decision D10). -/
def Obligations.SeedingOutOfBoundsStopsTheLoad : Prop :=
  ∀ (ds : List (Text × Word)) (s : State) (addr : Int),
    seed ds s = .error (.seeding addr) ↔
      ∃ before' name v rest, ds = before' ++ (name, v) :: rest ∧ v.toInt = addr ∧ ¬ s.inBounds addr ∧
        ∀ e ∈ before', s.inBounds e.2.toInt

/-- Which errors each phase can raise: resolution only `ParseError`; encoding any but the two of execution; seeding only
`MemoryOutOfBounds`; no load raises `UnsupportedOperation`; execution only `UnsupportedOperation` and `MemoryOutOfBounds` (R181,
which the spec derives). -/
def Obligations.LoadErrorsByPhase : Prop :=
  ∀ (p : Params) (lines : List Text) (k : Scan) (s : State) (e : LoadError),
    (resolve p lines = .error e → e.kind = .parseError) ∧
    (encodeProgram p.immOverflow k = .error e →
      e.kind = .unsupportedInstruction ∨ e.kind = .parseError ∨ e.kind = .invalidRegister ∨ e.kind = .unresolvedLabel) ∧
    (seed k.dataSegment s = .error e → e.kind = .memoryOutOfBounds) ∧
    (load p lines = .error e → e.kind ≠ .unsupportedOperation) ∧
    (∀ (t : State) (cause : ErrorKind) (index : Word) (info : Int), step s = .next t → t.status = .fault cause index info →
      cause = .unsupportedOperation ∨ cause = .memoryOutOfBounds)
end

