-- ==== Sys2Proof/Laws/Decode.lean ====
section
/-! SUPPORT. The three layouts as integers (spec/30_encoding.md R57 to R59), the fields of a word as integers (R60), and the
fields of a packed word. -/

namespace Sys2Proof

/-- Concatenation as integers (R14). -/
theorem toNat_append_eq {m n : Nat} (x : BitVec m) (y : BitVec n) : (x ++ y).toNat = x.toNat * 2 ^ n + y.toNat := by
  rw [BitVec.toNat_append, ← Nat.shiftLeft_add_eq_or_of_lt y.isLt, Nat.shiftLeft_eq]

theorem toNat_packR (funct : BitVec 6) (rd rs rt : RegIdx) (shamt : BitVec 5) :
    (packR funct rd rs rt shamt).toNat =
      rs.toNat * 2 ^ 21 + rt.toNat * 2 ^ 16 + rd.toNat * 2 ^ 11 + shamt.toNat * 2 ^ 6 + funct.toNat := by
  unfold packR
  have h0 : (0#6).toNat = 0 := rfl
  simp only [toNat_append_eq, h0]
  omega

theorem toNat_packI (opcode : BitVec 6) (rt rs : RegIdx) (imm : Imm16) :
    (packI opcode rt rs imm).toNat =
      opcode.toNat * 2 ^ 26 + rs.toNat * 2 ^ 21 + rt.toNat * 2 ^ 16 + imm.toNat := by
  unfold packI
  simp only [toNat_append_eq]
  omega

theorem toNat_packJ (opcode : BitVec 6) (target : Target26) :
    (packJ opcode target).toNat = opcode.toNat * 2 ^ 26 + target.toNat := toNat_append_eq _ _

theorem toNat_opcodeOf (w : Word) : (opcodeOf w).toNat = w.toNat / 2 ^ 26 := by
  have := w.isLt
  simp only [opcodeOf, BitVec.extractLsb'_toNat, Nat.shiftRight_eq_div_pow]
  omega

theorem toNat_rsOf (w : Word) : (rsOf w).toNat = w.toNat / 2 ^ 21 % 2 ^ 5 := by
  simp only [rsOf, BitVec.extractLsb'_toNat, Nat.shiftRight_eq_div_pow]

theorem toNat_rtOf (w : Word) : (rtOf w).toNat = w.toNat / 2 ^ 16 % 2 ^ 5 := by
  simp only [rtOf, BitVec.extractLsb'_toNat, Nat.shiftRight_eq_div_pow]

theorem toNat_rdOf (w : Word) : (rdOf w).toNat = w.toNat / 2 ^ 11 % 2 ^ 5 := by
  simp only [rdOf, BitVec.extractLsb'_toNat, Nat.shiftRight_eq_div_pow]

theorem toNat_shamtOf (w : Word) : (shamtOf w).toNat = w.toNat / 2 ^ 6 % 2 ^ 5 := by
  simp only [shamtOf, BitVec.extractLsb'_toNat, Nat.shiftRight_eq_div_pow]

theorem toNat_functOf (w : Word) : (functOf w).toNat = w.toNat % 2 ^ 6 := by
  simp [functOf]

theorem toNat_immOf (w : Word) : (immOf w).toNat = w.toNat % 2 ^ 16 := by
  simp [immOf]

theorem toNat_targetOf (w : Word) : (targetOf w).toNat = w.toNat % 2 ^ 26 := by
  simp [targetOf]

section PackR

variable (funct : BitVec 6) (rd rs rt : RegIdx) (shamt : BitVec 5)

@[simp] theorem opcodeOf_packR : opcodeOf (packR funct rd rs rt shamt) = 0#6 := by
  apply BitVec.eq_of_toNat_eq
  rw [toNat_opcodeOf, toNat_packR, BitVec.toNat_ofNat]
  omega

@[simp] theorem rsOf_packR : rsOf (packR funct rd rs rt shamt) = rs := by
  apply BitVec.eq_of_toNat_eq
  rw [toNat_rsOf, toNat_packR]
  omega

@[simp] theorem rtOf_packR : rtOf (packR funct rd rs rt shamt) = rt := by
  apply BitVec.eq_of_toNat_eq
  rw [toNat_rtOf, toNat_packR]
  omega

@[simp] theorem rdOf_packR : rdOf (packR funct rd rs rt shamt) = rd := by
  apply BitVec.eq_of_toNat_eq
  rw [toNat_rdOf, toNat_packR]
  omega

@[simp] theorem shamtOf_packR : shamtOf (packR funct rd rs rt shamt) = shamt := by
  apply BitVec.eq_of_toNat_eq
  rw [toNat_shamtOf, toNat_packR]
  omega

@[simp] theorem functOf_packR : functOf (packR funct rd rs rt shamt) = funct := by
  apply BitVec.eq_of_toNat_eq
  rw [toNat_functOf, toNat_packR]
  omega

end PackR

section PackI

variable (opcode : BitVec 6) (rt rs : RegIdx) (imm : Imm16)

@[simp] theorem opcodeOf_packI : opcodeOf (packI opcode rt rs imm) = opcode := by
  apply BitVec.eq_of_toNat_eq
  rw [toNat_opcodeOf, toNat_packI]
  omega

@[simp] theorem rsOf_packI : rsOf (packI opcode rt rs imm) = rs := by
  apply BitVec.eq_of_toNat_eq
  rw [toNat_rsOf, toNat_packI]
  omega

@[simp] theorem rtOf_packI : rtOf (packI opcode rt rs imm) = rt := by
  apply BitVec.eq_of_toNat_eq
  rw [toNat_rtOf, toNat_packI]
  omega

@[simp] theorem immOf_packI : immOf (packI opcode rt rs imm) = imm := by
  apply BitVec.eq_of_toNat_eq
  rw [toNat_immOf, toNat_packI]
  omega

end PackI

@[simp] theorem opcodeOf_packJ (opcode : BitVec 6) (target : Target26) : opcodeOf (packJ opcode target) = opcode := by
  apply BitVec.eq_of_toNat_eq
  rw [toNat_opcodeOf, toNat_packJ]
  omega

@[simp] theorem targetOf_packJ (opcode : BitVec 6) (target : Target26) : targetOf (packJ opcode target) = target := by
  apply BitVec.eq_of_toNat_eq
  rw [toNat_targetOf, toNat_packJ]
  omega

/-- A word is packed from its own fields. -/
theorem packR_fields (w : Word) (h : opcodeOf w = 0#6) : packR (functOf w) (rdOf w) (rsOf w) (rtOf w) (shamtOf w) = w := by
  apply BitVec.eq_of_toNat_eq
  have h' := congrArg BitVec.toNat h
  rw [toNat_opcodeOf, BitVec.toNat_ofNat] at h'
  rw [toNat_packR, toNat_functOf, toNat_rdOf, toNat_rsOf, toNat_rtOf, toNat_shamtOf]
  omega

theorem packI_fields (w : Word) : packI (opcodeOf w) (rtOf w) (rsOf w) (immOf w) = w := by
  apply BitVec.eq_of_toNat_eq
  rw [toNat_packI, toNat_opcodeOf, toNat_rsOf, toNat_rtOf, toNat_immOf]
  omega

theorem packJ_fields (w : Word) : packJ (opcodeOf w) (targetOf w) = w := by
  apply BitVec.eq_of_toNat_eq
  rw [toNat_packJ, toNat_opcodeOf, toNat_targetOf]
  omega

/-- A word of no row: what its opcode and funct are not (R67). -/
theorem decode_eq_error {w : Word} {e : DecodeError} (h : decode w = .error e) :
    (opcodeOf w = 0#6 ∧ ∀ op : ROp, functOf w ≠ op.funct) ∨
      (opcodeOf w ≠ 0#6 ∧ (∀ op : IOp, opcodeOf w ≠ op.opcode) ∧ (∀ op : BOp, opcodeOf w ≠ op.opcode) ∧
        opcodeOf w ≠ Mnemonic.j.opcode) := by
  unfold decode at h
  by_cases h0 : opcodeOf w = 0#6
  · rw [if_pos h0] at h
    unfold decodeR at h
    exact .inl ⟨h0, fun op hf => by cases op <;> simp [hf, ROp.funct] at h⟩
  · rw [if_neg h0] at h
    exact .inr ⟨h0, fun op hf => by cases op <;> simp [hf, IOp.opcode] at h,
      fun op hf => by cases op <;> simp [hf, IOp.opcode, BOp.opcode] at h,
      fun hf => by simp [hf, IOp.opcode, BOp.opcode, Mnemonic.opcode] at h⟩

end Sys2Proof
end

