-- ==== Sys2Proof/Laws/State.lean ====
section
/-! SUPPORT. One lemma per field for every update of the state, and the reads of a written register. -/

namespace Sys2Proof.Machine

variable (s : State) (i : RegIdx) (v : Word) (st : Status) (c : ErrorKind) (info : Int)

@[simp] theorem setPc_params : (s.setPc v).params = s.params := rfl
@[simp] theorem setPc_regs : (s.setPc v).regs = s.regs := rfl
@[simp] theorem setPc_pc : (s.setPc v).pc = v := rfl
@[simp] theorem setPc_dmem : (s.setPc v).dmem = s.dmem := rfl
@[simp] theorem setPc_status : (s.setPc v).status = s.status := rfl
@[simp] theorem setPc_imem : (s.setPc v).imem = s.imem := rfl
@[simp] theorem setPc_textSegment : (s.setPc v).textSegment = s.textSegment := rfl
@[simp] theorem setPc_dataSegment : (s.setPc v).dataSegment = s.dataSegment := rfl
@[simp] theorem setPc_labelAddress : (s.setPc v).labelAddress = s.labelAddress := rfl

theorem advancePc_eq : s.advancePc = s.setPc (s.pc + 1#32) := rfl
@[simp] theorem advancePc_params : s.advancePc.params = s.params := rfl
@[simp] theorem advancePc_regs : s.advancePc.regs = s.regs := rfl
@[simp] theorem advancePc_pc : s.advancePc.pc = s.pc + 1#32 := rfl
@[simp] theorem advancePc_dmem : s.advancePc.dmem = s.dmem := rfl
@[simp] theorem advancePc_status : s.advancePc.status = s.status := rfl
@[simp] theorem advancePc_imem : s.advancePc.imem = s.imem := rfl
@[simp] theorem advancePc_textSegment : s.advancePc.textSegment = s.textSegment := rfl
@[simp] theorem advancePc_dataSegment : s.advancePc.dataSegment = s.dataSegment := rfl
@[simp] theorem advancePc_labelAddress : s.advancePc.labelAddress = s.labelAddress := rfl

@[simp] theorem advancePc_fetchedIndex : s.advancePc.fetchedIndex = s.pc := by
  simp [State.fetchedIndex]

@[simp] theorem setStatus_params : (s.setStatus st).params = s.params := rfl
@[simp] theorem setStatus_regs : (s.setStatus st).regs = s.regs := rfl
@[simp] theorem setStatus_pc : (s.setStatus st).pc = s.pc := rfl
@[simp] theorem setStatus_dmem : (s.setStatus st).dmem = s.dmem := rfl
@[simp] theorem setStatus_status : (s.setStatus st).status = st := rfl
@[simp] theorem setStatus_imem : (s.setStatus st).imem = s.imem := rfl
@[simp] theorem setStatus_textSegment : (s.setStatus st).textSegment = s.textSegment := rfl
@[simp] theorem setStatus_dataSegment : (s.setStatus st).dataSegment = s.dataSegment := rfl
@[simp] theorem setStatus_labelAddress : (s.setStatus st).labelAddress = s.labelAddress := rfl

@[simp] theorem raise_params : (s.raise c info).params = s.params := rfl
@[simp] theorem raise_regs : (s.raise c info).regs = s.regs := rfl
@[simp] theorem raise_pc : (s.raise c info).pc = s.pc := rfl
@[simp] theorem raise_dmem : (s.raise c info).dmem = s.dmem := rfl
@[simp] theorem raise_status : (s.raise c info).status = .fault c s.fetchedIndex info := rfl
@[simp] theorem raise_imem : (s.raise c info).imem = s.imem := rfl
@[simp] theorem raise_textSegment : (s.raise c info).textSegment = s.textSegment := rfl
@[simp] theorem raise_dataSegment : (s.raise c info).dataSegment = s.dataSegment := rfl
@[simp] theorem raise_labelAddress : (s.raise c info).labelAddress = s.labelAddress := rfl

@[simp] theorem writeReg_params : (s.writeReg i v).params = s.params := by unfold State.writeReg; split <;> rfl
@[simp] theorem writeReg_pc : (s.writeReg i v).pc = s.pc := by unfold State.writeReg; split <;> rfl
@[simp] theorem writeReg_dmem : (s.writeReg i v).dmem = s.dmem := by unfold State.writeReg; split <;> rfl
@[simp] theorem writeReg_status : (s.writeReg i v).status = s.status := by unfold State.writeReg; split <;> rfl
@[simp] theorem writeReg_imem : (s.writeReg i v).imem = s.imem := by unfold State.writeReg; split <;> rfl
@[simp] theorem writeReg_textSegment : (s.writeReg i v).textSegment = s.textSegment := by
  unfold State.writeReg; split <;> rfl
@[simp] theorem writeReg_dataSegment : (s.writeReg i v).dataSegment = s.dataSegment := by
  unfold State.writeReg; split <;> rfl
@[simp] theorem writeReg_labelAddress : (s.writeReg i v).labelAddress = s.labelAddress := by
  unfold State.writeReg; split <;> rfl

/-- A register read depends on the register file only. -/
theorem readReg_congr {s t : State} (h : t.regs = s.regs) (i : RegIdx) : t.readReg i = s.readReg i := by
  simp [State.readReg, h]

@[simp] theorem readReg_setPc : (s.setPc v).readReg i = s.readReg i := rfl
@[simp] theorem readReg_advancePc : s.advancePc.readReg i = s.readReg i := rfl
@[simp] theorem readReg_setStatus : (s.setStatus st).readReg i = s.readReg i := rfl
@[simp] theorem readReg_raise : (s.raise c info).readReg i = s.readReg i := rfl
@[simp] theorem readReg_zero : s.readReg 0#5 = 0#32 := rfl
@[simp] theorem writeReg_zero : s.writeReg 0#5 v = s := rfl

/-- What a register reads after a write (R21). -/
theorem readReg_writeReg (d : RegIdx) :
    (s.writeReg d v).readReg i = if i = d ∧ d ≠ 0#5 then v else s.readReg i := by
  by_cases hd : d = 0#5
  · subst hd
    simp
  by_cases hi : i = 0#5
  · subst hi
    rw [if_neg fun h => hd h.1.symm]
    simp
  · simp only [State.readReg, State.writeReg, hd, hi, if_false, ne_eq, not_false_eq_true, and_true]
    rw [Vector.getElem_set]
    by_cases h : i = d
    · simp [h]
    · have : d.toNat ≠ i.toNat := fun e => h (BitVec.eq_of_toNat_eq e.symm)
      simp [h, this]

@[simp] theorem readReg_writeReg_self (h : i ≠ 0#5) : (s.writeReg i v).readReg i = v := by
  rw [readReg_writeReg, if_pos ⟨rfl, h⟩]

@[simp] theorem readReg_writeReg_ne (d : RegIdx) (h : i ≠ d) : (s.writeReg d v).readReg i = s.readReg i := by
  simp [readReg_writeReg, h]

/-- A register write keeps the unused slot of register 0. -/
theorem writeReg_slot_zero (d : RegIdx) : (s.writeReg d v).regs[0] = s.regs[0] := by
  unfold State.writeReg
  split
  · rfl
  · rename_i h
    have : d.toNat ≠ 0 := fun e => h (BitVec.eq_of_toNat_eq (by simpa using e))
    simp [this]

/-- A register write is a frame for everything but its register. -/
theorem writeReg_onlyRegister (d : RegIdx) : OnlyRegister d s (s.writeReg d v) := by
  refine ⟨fun i h => ?_, ?_, ?_, fun a => ?_, ?_, ?_, ?_, ?_, ?_⟩ <;> simp_all

end Sys2Proof.Machine
end

