-- ==== Sys2Proof/Laws/Memory.lean ====
section
/-! SUPPORT. The laws of the data memory: the canonical form is kept, a cell reads what was written to it, and every other
cell reads as before; and what a checked access can do. -/

namespace Sys2Proof.Machine

theorem Memory.read_eq_unlisted_of_lt {m : Memory} {a : Nat} (h : ∀ c ∈ m, a < c.1) :
    Memory.read m a = Memory.unlisted := by
  induction m with
  | nil => rfl
  | cons c m ih =>
    obtain ⟨k, w⟩ := c
    have hk := h (k, w) (by simp)
    rw [Memory.read, if_neg (by simp at hk; omega)]
    exact ih fun c hc => h c (by simp [hc])

/-- The addresses of a written memory are those of the old one and the written one. -/
theorem Memory.mem_write {m : Memory} {a : Nat} {v : Word} {c : Nat × Word} (h : c ∈ Memory.write m a v) :
    c = (a, v) ∨ c ∈ m := by
  induction m with
  | nil =>
    simp only [Memory.write] at h
    split at h <;> simp_all
  | cons d m ih =>
    obtain ⟨k, w⟩ := d
    simp only [Memory.write] at h
    split at h
    · split at h <;> simp_all
    · split at h
      · split at h
        · simp [h]
        · simp only [List.mem_cons] at h ⊢
          tauto
      · simp only [List.mem_cons] at h ⊢
        rcases h with h | h
        · simp [h]
        · have := ih h
          tauto

/-- Every write keeps the canonical form. -/
theorem Memory.wf_write {m : Memory} (hm : Memory.wf m) (a : Nat) (v : Word) : Memory.wf (Memory.write m a v) := by
  induction m with
  | nil =>
    simp only [Memory.write]
    split
    · exact hm
    · rename_i hne
      exact ⟨List.pairwise_singleton _ _, by simpa using hne⟩
  | cons d m ih =>
    obtain ⟨k, w⟩ := d
    obtain ⟨hp, hv⟩ := hm
    rw [List.pairwise_cons] at hp
    have hm' : Memory.wf m := ⟨hp.2, fun c hc => hv c (by simp [hc])⟩
    have hw : w ≠ Memory.unlisted := hv (k, w) (by simp)
    simp only [Memory.write]
    split
    · split
      · exact ⟨List.pairwise_cons.2 hp, hv⟩
      · rename_i hak hne
        refine ⟨List.pairwise_cons.2 ⟨fun c hc => ?_, List.pairwise_cons.2 hp⟩, fun c hc => ?_⟩
        · rcases List.mem_cons.1 hc with rfl | hc
          · exact hak
          · exact lt_trans hak (hp.1 c hc)
        · rcases List.mem_cons.1 hc with rfl | hc
          · exact hne
          · exact hv c hc
    · split
      · split
        · exact hm'
        · rename_i hka hne
          subst hka
          refine ⟨List.pairwise_cons.2 ⟨hp.1, hp.2⟩, fun c hc => ?_⟩
          rcases List.mem_cons.1 hc with rfl | hc
          · exact hne
          · exact hm'.2 c hc
      · rename_i hak hka
        obtain ⟨hp', hv'⟩ := ih hm'
        refine ⟨List.pairwise_cons.2 ⟨fun c hc => ?_, hp'⟩, fun c hc => ?_⟩
        · rcases Memory.mem_write hc with rfl | hc
          · simp only
            omega
          · exact hp.1 c hc
        · rcases List.mem_cons.1 hc with rfl | hc
          · exact hw
          · exact hv' c hc

/-- Read after write: the written cell holds the value, every other cell what it held. -/
theorem Memory.read_write {m : Memory} (hm : Memory.wf m) (a b : Nat) (v : Word) :
    Memory.read (Memory.write m a v) b = if b = a then v else Memory.read m b := by
  induction m with
  | nil =>
    simp only [Memory.write]
    by_cases hv : v = Memory.unlisted <;> by_cases hb : b = a <;> simp [Memory.read, hv, hb, Ne.symm]
  | cons d m ih =>
    obtain ⟨k, w⟩ := d
    obtain ⟨hp, hv⟩ := hm
    rw [List.pairwise_cons] at hp
    have hm' : Memory.wf m := ⟨hp.2, fun c hc => hv c (by simp [hc])⟩
    have low : ∀ x, x ≤ k → Memory.read m x = Memory.unlisted := fun x hx =>
      Memory.read_eq_unlisted_of_lt fun c hc => lt_of_le_of_lt hx (hp.1 c hc)
    simp only [Memory.write]
    split
    · rename_i hak
      split
      · rename_i hu
        by_cases hb : b = a
        · subst hb
          rw [Memory.read, if_neg (by omega), low b (by omega), if_pos rfl, hu]
        · rw [if_neg hb]
      · by_cases hb : b = a
        · subst hb
          simp [Memory.read]
        · rw [Memory.read, if_neg (Ne.symm hb), if_neg hb]
    · split
      · rename_i hak hka
        subst hka
        by_cases hb : b = k
        · subst hb
          split
          · rename_i hu
            rw [low b (le_refl _), if_pos rfl, hu]
          · simp [Memory.read]
        · rw [if_neg hb, Memory.read, if_neg (Ne.symm hb)]
          split
          · rfl
          · rw [Memory.read, if_neg (Ne.symm hb)]
      · rename_i hak hka
        rw [Memory.read, Memory.read, ih hm']
        by_cases hkb : k = b
        · subst hkb
          simp [hka]
        · simp [hkb]

/-- What a checked read answers (R41). -/
theorem memRead_eq_some {s : State} {addr : Int} {v : Word} :
    s.memRead addr = some v ↔ s.inBounds addr ∧ Memory.read s.dmem addr.toNat = v := by
  unfold State.memRead
  by_cases h : s.inBounds addr <;> simp [h]

theorem memRead_eq_none {s : State} {addr : Int} : s.memRead addr = none ↔ ¬ s.inBounds addr := by
  unfold State.memRead
  by_cases h : s.inBounds addr <;> simp [h]

/-- What a checked write answers (R42). -/
theorem memWrite_eq_some {s t : State} {addr : Int} {v : Word} :
    s.memWrite addr v = some t ↔
      s.inBounds addr ∧ t = { s with dmem := Memory.write s.dmem addr.toNat v } := by
  unfold State.memWrite
  by_cases h : s.inBounds addr <;> simp [h, eq_comm]

theorem memWrite_eq_none {s : State} {addr : Int} {v : Word} : s.memWrite addr v = none ↔ ¬ s.inBounds addr := by
  unfold State.memWrite
  by_cases h : s.inBounds addr <;> simp [h]

end Sys2Proof.Machine
end

