-- ==== Sys2Proof/Laws/Word.lean ====
section
/-! SUPPORT. The integer helpers of Machine/Operands.lean and Machine/Flags.lean against the bit-vector operations. -/

namespace Sys2Proof.Machine

/-- `sext_16` is the two's-complement reading of the field. -/
theorem sext16_eq_toInt (f : Imm16) : sext16 f = f.toInt := by
  unfold sext16
  rw [BitVec.toInt_eq_toNat_cond]
  have := f.isLt
  split <;> split <;> omega

theorem sext16_bounds (f : Imm16) : -(2 ^ 15) ≤ sext16 f ∧ sext16 f < 2 ^ 15 := by
  have := f.isLt
  unfold sext16
  split <;> omega

/-- The wrapped sum is bit-vector addition. -/
theorem aluAdd_eq (a b : Word) : aluAdd a b = a + b := by
  apply BitVec.eq_of_toInt_eq
  simp [aluAdd, wrap32, BitVec.toInt_ofInt, BitVec.toInt_add]

/-- The wrapped difference is bit-vector subtraction. -/
theorem aluSub_eq (a b : Word) : aluSub a b = a - b := by
  apply BitVec.eq_of_toInt_eq
  simp [aluSub, wrap32, BitVec.toInt_ofInt, BitVec.toInt_sub]

/-- Equality of the `s32` values is equality of the words. -/
theorem aluEq_iff (a b : Word) : aluEq a b = true ↔ a = b := by
  simp [aluEq, BitVec.toInt_inj]

end Sys2Proof.Machine
end

