-- ==== Sys2Proof/Laws/Exec.lean ====
section
/-! SUPPORT. What an instruction and a step can do, said once: every later proof cites these cases. -/

namespace Sys2Proof.Machine

/-- What one instruction does to the state: it always answers a next state, and that is one of these. -/
inductive Effect (i : Instr) (s : State) : State → Prop where
  /-- At most one register changes (R126, R127). -/
  | register (d : RegIdx) (v : Word) (hd : destination i = some d) (hx : executed i.mnemonic = true) :
    Effect i s (s.writeReg d v)
  /-- `sw`: one cell changes (R42). -/
  | store (rt rs : RegIdx) (imm : Imm16) (hi : i = .sw rt rs imm)
    (hb : s.inBounds (effectiveAddress (s.readReg rs) imm)) :
    Effect i s { s with dmem := Memory.write s.dmem (effectiveAddress (s.readReg rs) imm).toNat (s.readReg rt) }
  /-- A taken `beq`: the PC changes (R153). -/
  | taken (rt rs : RegIdx) (imm : Imm16) (hi : i = .beq rt rs imm) (he : s.readReg rs = s.readReg rt) :
    Effect i s (s.setPc (branchTarget s.pc imm))
  /-- A `beq` that is not taken: nothing changes. -/
  | notTaken (rt rs : RegIdx) (imm : Imm16) (hi : i = .beq rt rs imm) (he : s.readReg rs ≠ s.readReg rt) : Effect i s s
  /-- `lw` or `sw` out of bounds: `STATUS` changes (R166). -/
  | outOfBounds (rt rs : RegIdx) (imm : Imm16) (hi : i = .lw rt rs imm ∨ i = .sw rt rs imm)
    (hb : ¬ s.inBounds (effectiveAddress (s.readReg rs) imm)) :
    Effect i s (s.raiseOutOfBounds (effectiveAddress (s.readReg rs) imm))
  /-- `nor`, `bne`, `j`: `STATUS` changes (R130). -/
  | unsupported (hx : executed i.mnemonic = false) : Effect i s (s.raiseUnsupported (encode i))

/-- The one inversion of `exec`: it answers a next state, by one of the effects. -/
theorem exec_effect (i : Instr) (s : State) : ∃ t, exec i s = .next t ∧ Effect i s t := by
  cases i with
  | add rd rs rt sh => exact ⟨_, rfl, .register rd _ rfl rfl⟩
  | sub rd rs rt sh => exact ⟨_, rfl, .register rd _ rfl rfl⟩
  | and rd rs rt sh => exact ⟨_, rfl, .register rd _ rfl rfl⟩
  | or rd rs rt sh => exact ⟨_, rfl, .register rd _ rfl rfl⟩
  | slt rd rs rt sh => exact ⟨_, rfl, .register rd _ rfl rfl⟩
  | nor rd rs rt sh => exact ⟨_, rfl, .unsupported rfl⟩
  | addi rt rs imm => exact ⟨_, rfl, .register rt _ rfl rfl⟩
  | lw rt rs imm =>
    simp only [exec, execLw]
    cases h : s.memRead (effectiveAddress (s.readReg rs) imm) with
    | some v => exact ⟨_, rfl, .register rt v rfl rfl⟩
    | none => exact ⟨_, rfl, .outOfBounds rt rs imm (.inl rfl) (memRead_eq_none.1 h)⟩
  | sw rt rs imm =>
    simp only [exec, execSw]
    cases h : s.memWrite (effectiveAddress (s.readReg rs) imm) (s.readReg rt) with
    | some t =>
      obtain ⟨hb, rfl⟩ := memWrite_eq_some.1 h
      exact ⟨_, rfl, .store rt rs imm rfl hb⟩
    | none => exact ⟨_, rfl, .outOfBounds rt rs imm (.inr rfl) (memWrite_eq_none.1 h)⟩
  | beq rt rs imm =>
    simp only [exec, execBeq]
    by_cases h : s.readReg rs = s.readReg rt
    · rw [if_pos ((aluEq_iff _ _).2 h)]
      exact ⟨_, rfl, .taken rt rs imm rfl h⟩
    · rw [if_neg (by rwa [aluEq_iff])]
      exact ⟨_, rfl, .notTaken rt rs imm rfl h⟩
  | bne rt rs imm => exact ⟨_, rfl, .unsupported rfl⟩
  | j target => exact ⟨_, rfl, .unsupported rfl⟩

/-- An instruction's next state is one of its effects. -/
theorem exec_next {i : Instr} {s t : State} (h : exec i s = .next t) : Effect i s t := by
  obtain ⟨t', h', he⟩ := exec_effect i s
  rw [h] at h'
  cases h'
  exact he

/-- What one step can do. -/
inductive StepCase (s : State) : State → Prop where
  /-- Exhaustion (R124). -/
  | exhausted (hf : s.fetch = none) : StepCase s (s.setStatus .halt)
  /-- The decoded instruction acts on the state whose PC Fetch has advanced. -/
  | instr (w : Word) (i : Instr) (t : State) (hf : s.fetch = some w) (hd : decode w = .ok i)
    (he : Effect i s.advancePc t) : StepCase s t
  /-- A word of no row (R130). -/
  | unlisted (w : Word) (e : DecodeError) (hf : s.fetch = some w) (hd : decode w = .error e) :
    StepCase s (s.advancePc.raiseUnsupported w)

/-- The one inversion of `step`: only a running engine has a next state, and it is one of the cases. -/
theorem step_cases {s t : State} (h : step s = .next t) : s.status = .run ∧ StepCase s t := by
  unfold step at h
  cases hs : s.status with
  | halt => simp [hs] at h
  | fault c i info => simp [hs] at h
  | run =>
    simp only [hs, runCycle] at h
    refine ⟨rfl, ?_⟩
    cases hf : s.fetch with
    | none =>
      simp only [hf, Host.Outcome.next.injEq] at h
      exact h ▸ .exhausted hf
    | some w =>
      simp only [hf, execWord] at h
      cases hd : decode w with
      | ok i => exact .instr w i t hf hd (exec_next (by simpa only [hd] using h))
      | error e =>
        simp only [hd, execUnlisted, Host.Outcome.next.injEq] at h
        exact h ▸ .unlisted w e hf hd

end Sys2Proof.Machine
end

