-- ==== Sys2Proof/Laws/Resolver.lean ====
section
/-! SUPPORT. What a scanned line can do, said once, and the inversions of `resolve` and of the label lookup. -/

namespace Sys2Proof.Machine

/-- A name is found exactly when it is a key. -/
theorem lookupLabel_isSome {α : Type} (m : List (Text × α)) (name : Text) :
    (lookupLabel m name).isSome = true ↔ name ∈ m.map (·.1) := by
  simp [lookupLabel]

/-- What is found is an entry. -/
theorem lookupLabel_mem {α : Type} {m : List (Text × α)} {name : Text} {v : α} (h : lookupLabel m name = some v) :
    (name, v) ∈ m := by
  obtain ⟨e, he, rfl⟩ := Option.map_eq_some_iff.1 h
  have h1 := List.mem_of_find?_eq_some he
  have h2 := List.find?_some he
  simp only [beq_iff_eq] at h2
  rw [← h2]
  exact h1

/-- What one line adds to the scan. -/
inductive LineCase (k : Scan) : Scan → Prop where
  /-- A blank line or a directive: no map and no instruction changes (R84). -/
  | layout (c : Option Segment) (b : Bool) : LineCase k { k with current := c, sawText := b }
  /-- A data line: one new data label (R85, R93). -/
  | data (name : Text) (v : Word) (hn : name ∉ k.dataSegment.map (·.1)) :
    LineCase k { k with dataSegment := k.dataSegment ++ [(name, v)] }
  /-- A text line with an instruction and no label (R89). -/
  | instruction (s : Text) : LineCase k { k with textSegment := k.textSegment ++ [s] }
  /-- A label-only text line (R90). -/
  | label (name : Text) (hn : name ∉ k.labelAddress.map (·.1)) :
    LineCase k { k with labelAddress := k.labelAddress ++ [(name, k.textSegment.length)] }
  /-- A labelled instruction (R88). -/
  | labelled (name s : Text) (hn : name ∉ k.labelAddress.map (·.1)) :
    LineCase k { k with
      labelAddress := k.labelAddress ++ [(name, k.textSegment.length)]
      textSegment := k.textSegment ++ [s] }

theorem scanData_case {line s : Text} {k k' : Scan} (h : scanData line s k = .ok k') : LineCase k k' := by
  unfold scanData at h
  split at h
  · cases h
  split at h
  · cases h
  split at h
  · cases h
  rename_i hd
  split at h
  · split at h
    · cases h
      exact .data _ _ fun hm => hd ((lookupLabel_isSome _ _).2 hm)
    · cases h
  · cases h

theorem scanText_case {line s : Text} {k k' : Scan} (h : scanText line s k = .ok k') : LineCase k k' := by
  unfold scanText at h
  split at h
  · cases h
    unfold appendInstruction
    split
    · exact .layout k.current k.sawText
    · exact .instruction s
  split at h
  · cases h
  split at h
  · cases h
  rename_i hd
  cases h
  have hn := fun hm => hd ((lookupLabel_isSome k.labelAddress (lineLabel s)).2 hm)
  unfold appendInstruction
  split
  · exact .label _ hn
  · exact .labelled _ _ hn

/-- The one inversion of `scanLine`. -/
theorem scanLine_case {line : Text} {k k' : Scan} (h : scanLine line k = .ok k') : LineCase k k' := by
  unfold scanLine scanStripped at h
  split at h
  · cases h
    exact .layout k.current k.sawText
  split at h
  · cases h
    exact .layout _ _
  split at h
  · cases h
    exact .layout _ _
  split at h
  · cases h
  · exact scanData_case h
  · exact scanText_case h

/-- What every line keeps, the whole scan keeps. -/
theorem scanLines_induct {P : Scan → Prop} (hP : ∀ k k', LineCase k k' → P k → P k') {lines : List Text} {k k' : Scan}
    (h : scanLines lines k = .ok k') (h0 : P k) : P k' := by
  induction lines generalizing k with
  | nil => cases h; exact h0
  | cons line rest ih =>
    unfold scanLines at h
    cases hl : scanLine line k with
    | error e => simp [hl] at h
    | ok k1 => exact ih (by simpa only [hl] using h) (hP _ _ (scanLine_case hl) h0)

/-- What a successful resolution is (R96, R97). -/
theorem resolve_eq_ok {p : Params} {lines : List Text} {k : Scan} (h : resolve p lines = .ok k) :
    scanLines lines Scan.start = .ok k ∧ k.sawText = true ∧ k.textSegment.length ≤ p.imemMax := by
  unfold resolve at h
  cases hs : scanLines lines Scan.start with
  | error e => simp [hs] at h
  | ok k' =>
    simp only [hs] at h
    split at h
    · cases h
    split at h
    · cases h
    cases h
    simp_all

end Sys2Proof.Machine
end

