-- ==== Sys2Proof/Laws/Lexical.lean ====
section
/-! SUPPORT. What the lexical functions of the assembler text do: stripping, a line cut at its first colon, the tokens of a data
line, and the pieces between commas. -/

namespace Sys2Proof.Machine

/-! ### Stripping -/

/-- Stripping takes white space off the left end and then off the right end. -/
theorem strip_eq (t : Text) : strip t = (t.dropWhile isSpace).rdropWhile isSpace := rfl

/-- White space in front is dropped. -/
theorem dropWhile_space_append {a b : Text} (h : ∀ c ∈ a, isSpace c = true) :
    (a ++ b).dropWhile isSpace = b.dropWhile isSpace := by
  induction a with
  | nil => rfl
  | cons c a ih => rw [List.cons_append, List.dropWhile_cons_of_pos (h c (by simp)), ih fun d hd => h d (by simp [hd])]

/-- White space behind is dropped. -/
theorem rdropWhile_space_append {a b : Text} (h : ∀ c ∈ b, isSpace c = true) :
    (a ++ b).rdropWhile isSpace = a.rdropWhile isSpace := by
  rw [List.rdropWhile, List.rdropWhile, List.reverse_append, dropWhile_space_append]
  simpa using h

/-- The left end stops at the first character that is no white space. -/
theorem dropWhile_stop (a b : Text) {c : Char} (h : isSpace c = false) :
    (a ++ c :: b).dropWhile isSpace = a.dropWhile isSpace ++ c :: b := by
  induction a with
  | nil => simp [h]
  | cons d a ih => by_cases hd : isSpace d <;> simp [hd, ih]

/-- The right end stops at the last character that is no white space. -/
theorem rdropWhile_stop (a b : Text) {c : Char} (h : isSpace c = false) :
    (a ++ c :: b).rdropWhile isSpace = a ++ c :: b.rdropWhile isSpace := by
  rw [List.rdropWhile, List.reverse_append, List.reverse_cons, List.append_assoc, List.cons_append, List.nil_append,
    dropWhile_stop _ _ h, List.reverse_append, List.reverse_cons, List.reverse_reverse, List.append_assoc]
  rfl

/-- The two ends are taken off in either order. -/
theorem dropWhile_rdropWhile (t : Text) :
    (t.rdropWhile isSpace).dropWhile isSpace = (t.dropWhile isSpace).rdropWhile isSpace := by
  induction t with
  | nil => rfl
  | cons c t ih =>
    by_cases hc : isSpace c
    · rw [List.dropWhile_cons_of_pos hc, ← ih]
      by_cases he : ∀ d ∈ t, isSpace d = true
      · rw [List.rdropWhile_eq_nil_iff.2 he, List.rdropWhile_eq_nil_iff.2 (List.forall_mem_cons.2 ⟨hc, he⟩)]
      · have hne : t.rdropWhile isSpace ≠ [] := fun h => he (List.rdropWhile_eq_nil_iff.1 h)
        have : (c :: t).rdropWhile isSpace = c :: t.rdropWhile isSpace := by
          rw [List.rdropWhile, List.rdropWhile, List.reverse_cons, List.dropWhile_append, if_neg]
          · simp
          · intro h
            exact hne (by rw [List.rdropWhile]; simpa using h)
        rw [this, List.dropWhile_cons_of_pos hc]
    · have hc' : isSpace c = false := by simpa using hc
      have := rdropWhile_stop [] t hc'
      rw [List.nil_append, List.nil_append] at this
      rw [this, List.dropWhile_cons_of_neg hc, List.dropWhile_cons_of_neg hc, this]

/-- Stripping absorbs white space taken off the left end. -/
theorem strip_dropWhile (t : Text) : strip (t.dropWhile isSpace) = strip t :=
  congrArg (List.rdropWhile isSpace) (List.dropWhile_idempotent isSpace t)

/-- Stripping absorbs white space taken off the right end. -/
theorem strip_rdropWhile (t : Text) : strip (t.rdropWhile isSpace) = strip t := by
  rw [strip_eq, dropWhile_rdropWhile, List.rdropWhile_idempotent, ← strip_eq]

/-- Stripping absorbs white space in front. -/
theorem strip_space_append {a b : Text} (h : ∀ c ∈ a, isSpace c = true) : strip (a ++ b) = strip b := by
  rw [← strip_dropWhile, dropWhile_space_append h, strip_dropWhile]

/-- Stripping absorbs white space behind. -/
theorem strip_append_space {a b : Text} (h : ∀ c ∈ b, isSpace c = true) : strip (a ++ b) = strip a := by
  rw [← strip_rdropWhile, rdropWhile_space_append h, strip_rdropWhile]

/-- A text without white space is its own strip. -/
theorem strip_of_no_space {t : Text} (h : ∀ c ∈ t, isSpace c = false) : strip t = t := by
  have h1 : t.dropWhile isSpace = t := by
    cases t with
    | nil => rfl
    | cons c t => rw [List.dropWhile_cons_of_neg]; simp [h c (by simp)]
  rw [strip_eq, h1, List.rdropWhile_eq_self_iff]
  intro hne
  simp [h _ (List.getLast_mem hne)]

/-- Stripping adds no character. -/
theorem mem_of_mem_strip {c : Char} {t : Text} (h : c ∈ strip t) : c ∈ t := by
  rw [strip_eq, List.rdropWhile] at h
  have h2 := (List.dropWhile_sublist isSpace).subset (List.mem_reverse.1 h)
  exact (List.dropWhile_sublist isSpace).subset (List.mem_reverse.1 h2)

/-! ### A line cut at its first colon -/

/-- The text before and after the first `c`. -/
theorem before_after {c : Char} {a : Text} (b : Text) (h : c ∉ a) :
    before c (a ++ c :: b) = a ∧ after c (a ++ c :: b) = b := by
  have hd : ∀ d ∈ a, (d != c) = true := by
    rintro d hd
    simp only [bne_iff_ne, ne_eq]
    rintro rfl
    exact h hd
  constructor
  · unfold before
    rw [List.takeWhile_append_of_pos hd]
    simp
  · unfold after
    rw [List.dropWhile_append_of_pos hd]
    simp

/-- A line with a colon, stripped: what the scan sees of it (R85, R88, R92). -/
theorem strip_colon_line {head : Text} (body : Text) (h : ':' ∉ head) :
    hasChar ':' (strip (head ++ ':' :: body)) = true ∧ lineLabel (strip (head ++ ':' :: body)) = strip head ∧
      after ':' (strip (head ++ ':' :: body)) = body.rdropWhile isSpace ∧
      ∀ d : Text, ':' ∉ d → strip (head ++ ':' :: body) ≠ d := by
  have hs : strip (head ++ ':' :: body) = head.dropWhile isSpace ++ ':' :: body.rdropWhile isSpace := by
    rw [strip_eq, dropWhile_stop _ _ (by decide), rdropWhile_stop _ _ (by decide)]
  have hc : ':' ∉ head.dropWhile isSpace := fun hm => h ((List.dropWhile_sublist isSpace).subset hm)
  obtain ⟨hb, ha⟩ := before_after (body.rdropWhile isSpace) hc
  rw [hs]
  refine ⟨by simp [hasChar], by rw [lineLabel, hb, strip_dropWhile], ha, ?_⟩
  rintro d hd rfl
  exact hd (by simp)

/-- A line without a colon has none after stripping. -/
theorem strip_no_colon {line : Text} (h : ':' ∉ line) : hasChar ':' (strip line) = false := by
  rw [Bool.eq_false_iff]
  intro hc
  exact h (mem_of_mem_strip (by simpa [hasChar] using hc))

/-- A character of a label name is no white space and no colon (R92). -/
theorem label_char {name : Text} (h : isLabelName name = true) : name ≠ [] ∧ ∀ c ∈ name, isSpace c = false ∧ c ≠ ':' := by
  have key : ∀ c : Char, (isLetter c || isDecDigit c || c == '_' || c == '.') = true → isSpace c = false ∧ c ≠ ':' := by
    intro c hc
    constructor
    · by_contra hs
      simp only [Bool.not_eq_false, isSpace, Bool.or_eq_true, beq_iff_eq] at hs
      rcases hs with ((((rfl | rfl) | rfl) | rfl) | rfl) | rfl <;> revert hc <;> decide
    · rintro rfl
      revert hc
      decide
  cases name with
  | nil => simp [isLabelName] at h
  | cons c t =>
    simp only [isLabelName, Bool.and_eq_true, List.all_eq_true] at h
    refine ⟨by simp, fun d hd => ?_⟩
    rcases List.mem_cons.1 hd with rfl | hd
    · refine key d ?_
      have h1 := h.1
      simp only [Bool.or_eq_true] at h1 ⊢
      rcases h1 with (h1 | h1) | h1 <;> simp only [h1, true_or, or_true]
    · exact key d (h.2 d hd)

/-! ### The tokens of a data line -/

/-- Separators in front give no token. -/
theorem tokensFrom_separators {sep : Char → Bool} {a : Text} (b : Text) (h : ∀ c ∈ a, sep c = true) :
    tokensFrom sep [] (a ++ b) = tokensFrom sep [] b := by
  induction a with
  | nil => rfl
  | cons c a ih => simp [tokensFrom, h c (by simp), ih fun d hd => h d (by simp [hd])]

/-- A token that ends the text or that a separator follows is the first one. -/
theorem tokensFrom_token {sep : Char → Bool} {a b : Text} (hne : a ≠ []) (ha : ∀ c ∈ a, sep c = false)
    (hb : ∀ c ∈ b.head?, sep c = true) : tokensFrom sep [] (a ++ b) = a :: tokensFrom sep [] b := by
  have hcur : ∀ cur : Text, tokensFrom sep cur (a ++ b) = tokensFrom sep (a.reverse ++ cur) b := by
    clear hne hb
    induction a with
    | nil => exact fun _ => rfl
    | cons c a ih =>
      intro cur
      simp [tokensFrom, ha c (by simp), ih fun d hd => ha d (by simp [hd])]
  rw [hcur, List.append_nil]
  cases b with
  | nil => simp [tokensFrom, hne]
  | cons c b => simp [tokensFrom, hb c (by simp), hne]

/-- White space at the right end gives no token. -/
theorem dataTokens_rdropWhile (t : Text) : dataTokens (t.rdropWhile isSpace) = dataTokens t := by
  have last : ∀ (sep : Char → Bool) (t cur : Text) (c : Char), sep c = true →
      tokensFrom sep cur (t ++ [c]) = tokensFrom sep cur t := by
    intro sep t cur c hc
    induction t generalizing cur with
    | nil => simp [tokensFrom, hc]
    | cons d t ih => simp only [List.cons_append, tokensFrom, ih]
  induction t using List.reverseRecOn with
  | nil => rfl
  | append_singleton t c ih =>
    by_cases hc : isSpace c
    · rw [List.rdropWhile_concat_pos _ _ _ hc, ih]
      exact (last _ t [] c (by simp [hc])).symm
    · rw [List.rdropWhile_concat_neg _ _ _ hc]

/-! ### The pieces between commas -/

/-- There is always a piece. -/
theorem splitCommas_ne_nil (t : Text) : splitCommas t ≠ [] := by
  cases t with
  | nil => simp [splitCommas]
  | cons c t =>
    unfold splitCommas
    split
    · simp
    · split <;> simp

/-- A text without a comma, put in front, lengthens the first piece. -/
theorem splitCommas_append {p : Text} (hp : ',' ∉ p) {t q : Text} {qs : List Text} (ht : splitCommas t = q :: qs) :
    splitCommas (p ++ t) = (p ++ q) :: qs := by
  induction p with
  | nil => exact ht
  | cons c p ih =>
    have hc : c ≠ ',' := by
      rintro rfl
      exact hp (by simp)
    rw [List.cons_append, splitCommas, if_neg hc, ih fun h => hp (by simp [h])]
    rfl

/-- White space at the left end does not change the stripped pieces. -/
theorem splitCommas_dropWhile (t : Text) : (splitCommas (t.dropWhile isSpace)).map strip = (splitCommas t).map strip := by
  induction t with
  | nil => rfl
  | cons c t ih =>
    by_cases hc : isSpace c
    · have hcc : c ≠ ',' := by
        rintro rfl
        revert hc
        decide
      rw [List.dropWhile_cons_of_pos hc, ih, splitCommas, if_neg hcc]
      cases h : splitCommas t with
      | nil => exact absurd h (splitCommas_ne_nil t)
      | cons p ps =>
        have : strip (c :: p) = strip p := strip_space_append (a := [c]) (by simpa using hc)
        simp [this]
    · rw [List.dropWhile_cons_of_neg hc]

/-- A character that is no comma, put behind, lengthens the last piece. -/
theorem splitCommas_concat (t : Text) {c : Char} (hc : c ≠ ',') :
    ∃ ps p, splitCommas t = ps ++ [p] ∧ splitCommas (t ++ [c]) = ps ++ [p ++ [c]] := by
  induction t with
  | nil => exact ⟨[], [], rfl, by simp [splitCommas, hc]⟩
  | cons d t ih =>
    obtain ⟨ps, p, h1, h2⟩ := ih
    by_cases hd : d = ','
    · exact ⟨[] :: ps, p, by rw [splitCommas, if_pos hd, h1]; rfl, by rw [List.cons_append, splitCommas, if_pos hd, h2]; rfl⟩
    · cases ps with
      | nil => exact ⟨[], d :: p, by rw [splitCommas, if_neg hd, h1]; rfl, by rw [List.cons_append, splitCommas, if_neg hd, h2]; rfl⟩
      | cons q qs =>
        exact ⟨(d :: q) :: qs, p, by rw [splitCommas, if_neg hd, h1]; rfl, by
          rw [List.cons_append, splitCommas, if_neg hd, h2]; rfl⟩

/-- Stripping a text does not change its stripped pieces (R101). -/
theorem splitCommas_strip (t : Text) : (splitCommas (strip t)).map strip = (splitCommas t).map strip := by
  have right : ∀ u : Text, (splitCommas (u.rdropWhile isSpace)).map strip = (splitCommas u).map strip := by
    intro u
    induction u using List.reverseRecOn with
    | nil => rfl
    | append_singleton u c ih =>
      by_cases hc : isSpace c
      · obtain ⟨ps, p, h1, h2⟩ := splitCommas_concat u (c := c) (by
          rintro rfl
          revert hc
          decide)
        rw [List.rdropWhile_concat_pos _ _ _ hc, ih, h1, h2]
        simp [strip_append_space (a := p) (b := [c]) (by simpa using hc)]
      · rw [List.rdropWhile_concat_neg _ _ _ hc]
  rw [strip_eq, right, splitCommas_dropWhile]

end Sys2Proof.Machine
end

