-- ==== Sys2Proof/Laws/Load.lean ====
section
/-! SUPPORT. The inversions of the encoding and seeding stages and of the whole load sequence. -/

namespace Sys2Proof.Machine

/-- One word for each line (R32). -/
theorem encodeFrom_length {o : ImmOverflow} {ds : List (Text × Word)} {la : List (Text × Nat)} {lines : List Text}
    {index : Nat} {ws : List Word} (h : encodeFrom o ds la index lines = .ok ws) : ws.length = lines.length := by
  induction lines generalizing index ws with
  | nil => cases h; rfl
  | cons line rest ih =>
    unfold encodeFrom at h
    cases hl : encodeLine o line ds la index with
    | error e => simp [hl] at h
    | ok w =>
      simp only [hl] at h
      cases hr : encodeFrom o ds la (index + 1) rest with
      | error e => simp [hr] at h
      | ok ws' =>
        simp only [hr, Except.ok.injEq] at h
        subst h
        simp [ih hr]

/-- The state that seeding starts from differs from the seeded one in the data memory only. -/
def SeededFrom (s t : State) : Prop := t = { s with dmem := t.dmem }

/-- What a successful seeding is: every value was in bounds and only the data memory changed (R47, R48). -/
theorem seed_eq_ok {ds : List (Text × Word)} {s t : State} (h : seed ds s = .ok t) :
    SeededFrom s t ∧ ∀ e ∈ ds, s.inBounds e.2.toInt := by
  induction ds generalizing s with
  | nil =>
    cases h
    exact ⟨rfl, by simp⟩
  | cons e rest ih =>
    obtain ⟨name, v⟩ := e
    unfold seed at h
    cases hw : s.memWrite v.toInt v with
    | none => simp [hw] at h
    | some s1 =>
      obtain ⟨hb, rfl⟩ := memWrite_eq_some.1 hw
      obtain ⟨hf, ha⟩ := ih (by simpa only [hw] using h)
      refine ⟨hf, fun e he => ?_⟩
      rcases List.mem_cons.1 he with rfl | he
      · exact hb
      · exact ha e he

/-- Seeding keeps what every in-bounds write keeps. -/
theorem seed_induct {P : Memory → Prop} {ds : List (Text × Word)} {s t : State} (h : seed ds s = .ok t)
    (hP : ∀ m a v, a < s.params.memWords → P m → P (Memory.write m a v)) (h0 : P s.dmem) : P t.dmem := by
  induction ds generalizing s with
  | nil => cases h; exact h0
  | cons e rest ih =>
    obtain ⟨name, v⟩ := e
    unfold seed at h
    cases hw : s.memWrite v.toInt v with
    | none => simp [hw] at h
    | some s1 =>
      obtain ⟨hb, rfl⟩ := memWrite_eq_some.1 hw
      have hlt : v.toInt.toNat < s.params.memWords := by
        have := hb.1
        have := hb.2
        omega
      have hr : seed rest { s with dmem := Memory.write s.dmem v.toInt.toNat v } = .ok t := by simpa only [hw] using h
      exact ih hr hP (hP _ _ _ hlt h0)

/-- What a successful load is: the four stages in order (R183). -/
theorem load_eq_ok {p : Params} {lines : List Text} {s : State} (h : load p lines = .ok s) :
    ∃ k program, resolve p lines = .ok k ∧ encodeProgram p.immOverflow k = .ok program ∧
      seed k.dataSegment (State.created p k.dataSegment k.labelAddress k.textSegment program) = .ok s := by
  unfold load at h
  cases hr : resolve p lines with
  | error e => simp [hr] at h
  | ok k =>
    simp only [hr] at h
    cases he : encodeProgram p.immOverflow k with
    | error e => simp [he] at h
    | ok program => exact ⟨k, program, rfl, he, by simpa only [he] using h⟩

end Sys2Proof.Machine
end

