-- ==== Sys2Proof/Laws/PerInstr.lean ====
section
/-! SUPPORT. The family `OpcodeField`: the opcode and funct fields of an instruction's word are those of its row of the
instruction-set table (spec/30_encoding.md R65, R71). One lemma per constructor of `Instr`. -/

namespace Sys2Proof.Laws.OpcodeField

/-- The word of `i` carries the opcode of its row, and the funct of its row where the row has one. -/
def Statement (i : Instr) : Prop :=
  opcodeOf (encode i) = i.mnemonic.opcode ∧ ∀ f, i.mnemonic.funct = some f → functOf (encode i) = f

theorem add (rd rs rt : RegIdx) (shamt : BitVec 5) : Statement (.add rd rs rt shamt) := by
  simp [Statement, encode, Instr.mnemonic, Mnemonic.opcode, Mnemonic.funct]

theorem sub (rd rs rt : RegIdx) (shamt : BitVec 5) : Statement (.sub rd rs rt shamt) := by
  simp [Statement, encode, Instr.mnemonic, Mnemonic.opcode, Mnemonic.funct]

theorem and (rd rs rt : RegIdx) (shamt : BitVec 5) : Statement (.and rd rs rt shamt) := by
  simp [Statement, encode, Instr.mnemonic, Mnemonic.opcode, Mnemonic.funct]

theorem or (rd rs rt : RegIdx) (shamt : BitVec 5) : Statement (.or rd rs rt shamt) := by
  simp [Statement, encode, Instr.mnemonic, Mnemonic.opcode, Mnemonic.funct]

theorem slt (rd rs rt : RegIdx) (shamt : BitVec 5) : Statement (.slt rd rs rt shamt) := by
  simp [Statement, encode, Instr.mnemonic, Mnemonic.opcode, Mnemonic.funct]

theorem nor (rd rs rt : RegIdx) (shamt : BitVec 5) : Statement (.nor rd rs rt shamt) := by
  simp [Statement, encode, Instr.mnemonic, Mnemonic.opcode, Mnemonic.funct]

theorem addi (rt rs : RegIdx) (imm : Imm16) : Statement (.addi rt rs imm) := by
  simp [Statement, encode, Instr.mnemonic, Mnemonic.opcode, Mnemonic.funct]

theorem lw (rt rs : RegIdx) (imm : Imm16) : Statement (.lw rt rs imm) := by
  simp [Statement, encode, Instr.mnemonic, Mnemonic.opcode, Mnemonic.funct]

theorem sw (rt rs : RegIdx) (imm : Imm16) : Statement (.sw rt rs imm) := by
  simp [Statement, encode, Instr.mnemonic, Mnemonic.opcode, Mnemonic.funct]

theorem beq (rt rs : RegIdx) (imm : Imm16) : Statement (.beq rt rs imm) := by
  simp [Statement, encode, Instr.mnemonic, Mnemonic.opcode, Mnemonic.funct]

theorem bne (rt rs : RegIdx) (imm : Imm16) : Statement (.bne rt rs imm) := by
  simp [Statement, encode, Instr.mnemonic, Mnemonic.opcode, Mnemonic.funct]

theorem j (target : Target26) : Statement (.j target) := by
  simp [Statement, encode, Instr.mnemonic, Mnemonic.opcode, Mnemonic.funct]

end Sys2Proof.Laws.OpcodeField
end

