-- ==== Sys2Proof/Tests/Slice0.lean ====
section
/-! SUPPORT. The model's own tests. The expected results are those of spec/95_test_vectors.md, whose vector is named beside
each test, or are worked out by hand from the encodings of spec/30_encoding.md. After them, the witnesses: states and operands
that meet the hypotheses of the obligations. -/

namespace Sys2Proof.Tests

open Sys2Proof.Machine

/-! ### Helpers -/

/-- The next state of an outcome, where there is one. -/
def nextOf (o : Host.Outcome State Fault Refusal) : Option State :=
  match o with
  | .next t => some t
  | .fault _ => none
  | .refused _ => none

/-- Why a step has no next state. -/
def faultOf (o : Host.Outcome State Fault Refusal) : Option Fault :=
  match o with
  | .next _ => none
  | .fault f => some f
  | .refused _ => none

/-- A running state with some registers, some cells, a PC, and the word of the next fetch. -/
def machine (regs : List (RegIdx × Word)) (cells : Memory) (pc : Nat) (w : Nat) : State :=
  (regs.foldl (fun (s : State) r => s.writeReg r.1 r.2)
    { State.reset with pc := BitVec.ofNat 32 pc, dmem := cells }).withFetchWord 32 w

/-- Register `d` after one step. -/
def regAfter (s : State) (d : RegIdx) : Option Word := (nextOf (step s)).map fun t => t.readReg d

/-- Cell `a` after one step. -/
def cellAfter (s : State) (a : Nat) : Option Word := (nextOf (step s)).map fun t => Memory.read t.dmem a

/-- The PC after one step. -/
def pcAfter (s : State) : Option Word := (nextOf (step s)).map (·.pc)

/-- `STATUS` after one step. -/
def statusAfter (s : State) : Option Status := (nextOf (step s)).map (·.status)

/-- The state after a step is the one before it but for PC and `STATUS`. -/
def onlyRaised (s : State) : Bool :=
  match nextOf (step s) with
  | some t => decide (t = { s with pc := s.pc + 1, status := t.status })
  | none => false

/-- The lines of a source text. -/
def lines (l : List String) : List Text := l.map String.toList

/-- The state after a load. -/
def loaded (l : List String) : Option State := (load Params.default (lines l)).toOption

/-- The taxonomy's error of a load. -/
def loadError (l : List String) : Option ErrorKind :=
  match load Params.default (lines l) with
  | .ok _ => none
  | .error e => some e.kind

/-- The maps of section 2.3 of the vectors. -/
def encoded (line : String) (index : Nat) : Except EncodeError Word :=
  encodeLine .truncate line.toList [("val".toList, 5), ("mask".toList, 12)] [("start".toList, 0), ("done".toList, 6)] index

/-- The word of a line, where it encodes. -/
def wordOf (line : String) (index : Nat) : Option Word := (encoded line index).toOption

/-- The error of a line, where it raises one. -/
def errorOf (line : String) (index : Nat) : Option EncodeError :=
  match encoded line index with
  | .ok _ => none
  | .error e => some e

/-! ### WellFormed: an ill-formed term for each check -/

theorem test_wf_add : (Instr.add 10 8 9 1).wf = false ∧ (Instr.add 10 8 9 0).wf = true := by decide
theorem test_wf_sub : (Instr.sub 10 8 9 31).wf = false ∧ (Instr.sub 10 8 9 0).wf = true := by decide
theorem test_wf_and : (Instr.and 10 8 9 16).wf = false ∧ (Instr.and 10 8 9 0).wf = true := by decide
theorem test_wf_or : (Instr.or 10 8 9 2).wf = false ∧ (Instr.or 10 8 9 0).wf = true := by decide
theorem test_wf_slt : (Instr.slt 10 8 9 4).wf = false ∧ (Instr.slt 10 8 9 0).wf = true := by decide
theorem test_wf_nor : (Instr.nor 10 8 9 8).wf = false ∧ (Instr.nor 10 8 9 0).wf = true := by decide

/-! ### Decode: words written out from R57 to R59 and R65 -/

theorem test_decode_add : decode 0b00000001000010010101000000100000 = .ok (.add 10 8 9 0) := by decide
theorem test_decode_sub : decode 0b00000001010010110100111111100010 = .ok (.sub 9 10 11 31) := by decide
theorem test_decode_and : decode 0b00000010000100011001000000100100 = .ok (.and 18 16 17 0) := by decide
theorem test_decode_or : decode 0b00000001000000000101000000100101 = .ok (.or 10 8 0 0) := by decide
theorem test_decode_slt : decode 0b00000010100000001010100000101010 = .ok (.slt 21 20 0 0) := by decide
theorem test_decode_nor : decode 0b00000001000010000100100000100111 = .ok (.nor 9 8 8 0) := by decide
theorem test_decode_addi : decode 0b00100000000111111000000000000000 = .ok (.addi 31 0 0x8000) := by decide
theorem test_decode_lw : decode 0b10001101001010000000000000000100 = .ok (.lw 8 9 4) := by decide
theorem test_decode_sw : decode 0b10101110000101000000000000000001 = .ok (.sw 20 16 1) := by decide
theorem test_decode_beq : decode 0b00010000000010000000000000000011 = .ok (.beq 8 0 3) := by decide
theorem test_decode_bne : decode 0b00010101001010001111111111111111 = .ok (.bne 8 9 0xFFFF) := by decide
theorem test_decode_j : decode 0b00001011111111111111111111111111 = .ok (.j 0x3FFFFFF) := by decide
theorem test_decode_unlisted :
    decode 0 = .error (.unknownFunct 0) ∧ decode 0x01095021 = .error (.unknownFunct 33) ∧
      decode 0x25090001 = .error (.unknownOpcode 9) ∧ decode 0xFFFFFFFF = .error (.unknownOpcode 63) := by decide

/-- F3 and F5: every field of every word. -/
theorem test_fields :
    Fields.ofWord 0x1000FFFC = ⟨4, 0, 0, 31, 31, 60, 65532⟩ ∧ Fields.ofWord 0xFFFFFFFF = ⟨63, 31, 31, 31, 31, 63, 65535⟩ := by
  decide

theorem test_decode_table_word :
    decodeTableWord 32 0x01095020 = some (.add 10 8 9 0) ∧ decodeTableWord 32 0 = none := by decide

/-! ### One step: R-format (vectors A) -/

/-- A1: the sum wraps. -/
theorem test_add_wraps : regAfter (machine [(8, 0x7FFFFFFF), (9, 1)] [] 3 0x01095020) 10 = some 0x80000000 := by decide
/-- A7: `shamt` is ignored, and the PC goes on. -/
theorem test_add_shamt :
    regAfter (machine [(8, 4), (9, 3)] [] 3 0x010957E0) 10 = some 7 ∧
      pcAfter (machine [(8, 4), (9, 3)] [] 3 0x010957E0) = some 4 := by decide
/-- A9. -/
theorem test_sub_wraps : regAfter (machine [(8, 0x80000000), (9, 1)] [] 0 0x01095022) 10 = some 0x7FFFFFFF := by decide
/-- A11: the order of the operands. -/
theorem test_sub_order : regAfter (machine [(8, 3), (9, 5)] [] 0 0x01095022) 10 = some 0xFFFFFFFE := by decide
/-- A14. -/
theorem test_and : regAfter (machine [(8, 0xF0F0F0F0), (9, 0x0FF00FF0)] [] 0 0x01095024) 10 = some 0x00F000F0 := by decide
/-- A16. -/
theorem test_or : regAfter (machine [(8, 0xF0F0F0F0), (9, 0x0FF00FF0)] [] 0 0x01095025) 10 = some 0xFFF0FFF0 := by decide
/-- A19: a signed compare. -/
theorem test_slt_signed : regAfter (machine [(8, 0x80000000), (9, 0x7FFFFFFF)] [] 0 0x0109502A) 10 = some 1 := by decide
/-- A22: equal is not less, and the old value is overwritten. -/
theorem test_slt_equal : regAfter (machine [(8, 5), (9, 5), (10, 99)] [] 0 0x0109502A) 10 = some 0 := by decide
/-- A26 and P5. -/
theorem test_nor_raises :
    statusAfter (machine [(8, 1), (9, 2)] [] 1 0x01095027) = some (.fault .unsupportedOperation 1 0x01095027) ∧
      onlyRaised (machine [(8, 1), (9, 2)] [] 1 0x01095027) = true := by decide
/-- A24. -/
theorem test_unlisted_raises :
    statusAfter (machine [] [] 1 0) = some (.fault .unsupportedOperation 1 0) ∧ onlyRaised (machine [] [] 1 0) = true := by
  decide

/-! ### One step: immediate and memory (vectors M) -/

/-- M2: the immediate is sign-extended and the sum wraps. -/
theorem test_addi_wraps : regAfter (machine [(8, 0x80000000)] [] 0 0x2109FFFF) 9 = some 0x7FFFFFFF := by decide
/-- S6: register 0 discards the write. -/
theorem test_addi_zero : nextOf (step (machine [] [] 0 0x20000005)) = some { machine [] [] 0 0x20000005 with pc := 1 } := by decide
/-- M13: a negative base. -/
theorem test_lw_negative_base :
    regAfter (machine [(9, 0xFFFFFFF6)] [(10, 33)] 0 0x8D280014) 8 = some 33 := by decide
/-- M17: the exact sum, not wrapped into bounds. -/
theorem test_lw_out_of_bounds :
    statusAfter (machine [(9, 0x7FFFFFFF)] [] 0 0x8D287FFF) = some (.fault .memoryOutOfBounds 0 2147516414) ∧
      onlyRaised (machine [(9, 0x7FFFFFFF)] [] 0 0x8D287FFF) = true := by decide
/-- M20: a seeded cell is overwritten. -/
theorem test_sw_overwrites :
    (nextOf (step (machine [(10, 0x80000000), (9, 2)] [(5, 5)] 0 0xAD2A0003))).map (·.dmem) = some [(5, 0x80000000)] := by decide
/-- M23. -/
theorem test_sw_out_of_bounds :
    statusAfter (machine [(10, 1), (9, 255)] [] 0 0xAD2A0001) = some (.fault .memoryOutOfBounds 0 256) ∧
      onlyRaised (machine [(10, 1), (9, 255)] [] 0 0xAD2A0001) = true := by decide

/-! ### One step: control (vectors B) -/

/-- B6: a branch before the start wraps the PC. -/
theorem test_beq_wraps : pcAfter (machine [] [] 0 0x1000FFFD) = some 4294967294 := by decide
/-- B2 and B9: not taken, and taken on equal negative values. -/
theorem test_beq_compare :
    pcAfter (machine [(8, 1), (9, 2)] [] 4 0x11280005) = some 5 ∧
      pcAfter (machine [(8, 0xFFFFFFFF), (9, 0xFFFFFFFF)] [] 1 0x11280002) = some 4 := by decide
/-- P8 (b). -/
theorem test_bne_raises :
    statusAfter (machine [] [] 0 0x1528FFFF) = some (.fault .unsupportedOperation 0 0x1528FFFF) ∧
      onlyRaised (machine [] [] 0 0x1528FFFF) = true := by decide
/-- P8 (a). -/
theorem test_j_raises :
    statusAfter (machine [(8, 1)] [] 1 0x08000000) = some (.fault .unsupportedOperation 1 0x08000000) ∧
      onlyRaised (machine [(8, 1)] [] 1 0x08000000) = true := by decide

/-- R124: the exhausted fetch of bare reset, and a stopped engine. -/
theorem test_exhausted :
    nextOf (step State.reset) = some { State.reset with status := .halt } ∧
      faultOf (step { State.reset with status := .halt }) = some .halted ∧
      faultOf (step { State.reset with status := .fault .memoryOutOfBounds 0 256 }) = some .faulted := by decide

/-- S1, steps 3 and 4 as the host sees them (R136). -/
theorem test_observe :
    observe (machine [(8, 10), (9, 20)] [] 2 0x01095020) = some ⟨2, ⟨0, 8, 9, 10, 0, 32, 0x5020⟩, some (10, 30), none, 3⟩ ∧
      observe (machine [(10, 30)] [] 3 0xAC0A0000) = some ⟨3, ⟨43, 0, 10, 0, 0, 0, 0⟩, none, some (0, 30), 4⟩ := by decide

/-! ### Loading -/

/-- S1: the state in which execution starts. -/
theorem test_load_scenario :
    (loaded [".data", "val: .word 5", ".text", "addi $t0, $zero, 10", "addi $t1, $zero, 20", "add $t2, $t0, $t1",
        "sw $t2, 0($zero)", "lw $t3, 0($zero)"]).map (fun s => (s.imem, s.dmem)) =
      some ([0x2008000A, 0x20090014, 0x01095020, 0xAC0A0000, 0x8C0B0000], [(5, 5)]) := by decide

/-- S2: a forward reference. -/
theorem test_load_forward :
    (loaded [".text", "beq $zero, $zero, done", "add $t0, $t1, $t2", "done: addi $t1, $zero, 7"]).map (fun s => (s.imem, s.pc)) =
      some ([0x10000001, 0x012A4020, 0x20090007], 0) := by decide

/-- V1: the maps. -/
theorem test_resolve_maps :
    (resolve Params.default (lines [".data", "a: .word 3, 4, 5", "b: .space 7", "c:.word   -2", ".text", "", "start:", "  lw $t0, a",
        ".data", "d: .word 9", ".text", "mid: lw $t1, b", "end:"])).toOption.map
        (fun k => (k.dataSegment, k.labelAddress, k.textSegment)) =
      some ([("a".toList, 3), ("b".toList, 7), ("c".toList, 0xFFFFFFFE), ("d".toList, 9)],
        [("start".toList, 0), ("mid".toList, 1), ("end".toList, 2)], lines ["lw $t0, a", "lw $t1, b"]) := by decide

/-- V2 to V7, V9, V11. -/
theorem test_resolve_errors :
    loadError [".data", "val .word 5", ".text"] = some .parseError ∧ loadError [".data", "val: .word", ".text"] = some .parseError ∧
      loadError [".data", "val: .word 0x10", ".text"] = some .parseError ∧
      loadError [".data", "val: .word 2147483648", ".text"] = some .parseError ∧
      loadError ["add $t0, $t0, $t0", ".text"] = some .parseError ∧ loadError [".data", "x: .word 1"] = some .parseError ∧
      loadError [".text", "a:", "a: add $t0, $t0, $t0"] = some .parseError ∧
      loadError [".text", "1st: add $t0, $t0, $t0"] = some .parseError := by decide

/-- V12, V13 and V10. -/
theorem test_load_errors :
    loadError [".text", "a: b: add $t0, $t0, $t0"] = some .unsupportedInstruction ∧
      loadError [".data", "big: .word 300", ".text"] = some .memoryOutOfBounds ∧
      (loaded [".data", "x: .word 4", ".text", "x: lw $t0, x", "beq $zero, $zero, x"]).map (·.imem) = some [0x8C080004, 0x1000FFFE] := by
  decide

/-! ### Encoding lines (vectors E) -/

/-- E1, E5, E7. -/
theorem test_encode_immediate :
    wordOf "addi $t0, $zero, 10" 0 = some 0x2008000A ∧ wordOf "addi $t0, $zero, 40000" 0 = some 0x20089C40 ∧
      wordOf "addi $t2, $zero, -32769" 0 = some 0x200A7FFF := by decide
/-- E9, E10, E11, E12, E13, E15. -/
theorem test_encode_forms :
    wordOf "lw $t0, -1($zero)" 0 = some 0x8C08FFFF ∧ wordOf "lw $t0, $t1" 0 = some 0x8D280000 ∧ wordOf "lw $s0, val" 0 = some 0x8C100005 ∧
      wordOf "sw $t0, $t1, 4" 0 = some 0xAD280004 ∧ wordOf "addi $t0, 4($t1)" 0 = some 0x21280004 ∧
      wordOf "sw $t2, 0( $zero )" 0 = some 0xAC0A0000 := by decide
/-- E16, E17, and the `slt` and `nor` rows of S3. -/
theorem test_encode_registers :
    wordOf "add   $t2,$t0 ,  $t1" 0 = some 0x01095020 ∧ wordOf "add $08, $010, $0" 0 = some 0x01404020 ∧
      wordOf "slt $t2, $t0, $t1" 0 = some 0x0109502A ∧ wordOf "nor $t2, $t0, $t1" 0 = some 0x01095027 := by decide
/-- E18, E19, E20, E21. -/
theorem test_encode_labels :
    wordOf "beq $t0, $zero, done" 2 = some 0x10080003 ∧ wordOf "beq $t0, $zero, done" 6 = some 0x1008FFFF ∧
      wordOf "j start" 3 = some 0x08000000 ∧ wordOf "j done" 3 = some 0x08000006 := by decide
/-- E22, E23, E25, E26, E27, E28. -/
theorem test_encode_errors :
    errorOf "foo $t0, $t1, $t2" 0 = some (.unsupportedInstruction "foo".toList) ∧
      errorOf "ADD $t0, $t0, $t0" 0 = some (.unsupportedInstruction "ADD".toList) ∧ errorOf "add $t0, $t1" 0 = some .parseError ∧
      errorOf "j" 0 = some .parseError ∧ errorOf "add $t0, $t1, $32" 0 = some (.invalidRegister "$32".toList) ∧
      errorOf "add $t0, $t1, t2" 0 = some (.invalidRegister "t2".toList) := by decide
/-- E29 to E34. -/
theorem test_encode_form_errors :
    errorOf "addi $t0, $zero, 0x10" 0 = some .parseError ∧ errorOf "lw $t0, 4($t1" 0 = some .parseError ∧
      errorOf "lw $t0, ($t1)" 0 = some .parseError ∧ errorOf "sw $t0, 4($t1) x" 0 = some .parseError ∧
      errorOf "lw $t0, vall" 0 = some (.invalidRegister "vall".toList) ∧
      errorOf "lw $t0, done" 0 = some (.invalidRegister "done".toList) := by decide
/-- E35 to E39. -/
theorem test_encode_label_errors :
    errorOf "beq $zero, $zero, 5" 0 = some (.unresolvedLabel "5".toList) ∧
      errorOf "beq $zero, $zero, val" 0 = some (.unresolvedLabel "val".toList) ∧
      errorOf "beq $t0, $q, nowhere" 0 = some (.invalidRegister "$q".toList) ∧ errorOf "addi $t2, $t0, 4($t1)" 0 = some .parseError ∧
      errorOf "j nowhere" 0 = some (.unresolvedLabel "nowhere".toList) := by decide

/-! ### Witnesses of the hypotheses of the obligations

`witness_<Name>` meets the hypotheses of `Obligations.<Name>`, with one witness for each clause, at the ends of its range. -/

theorem witness_EncodeOfDecode : decode 0x01095020 = .ok (.add 10 8 9 0) := by decide

theorem witness_RowSelectedByMask :
    (0x010957FF#32 &&& (Mnemonic.r .add).mask ≠ (Mnemonic.r .add).pattern) ∧
      0x03FFFFE0#32 &&& (Mnemonic.r .add).mask = (Mnemonic.r .add).pattern ∧ 0x0BFFFFFF#32 &&& Mnemonic.j.mask = Mnemonic.j.pattern := by
  decide

/-- The statements that tell apart a destination 0 and another (`add`, `sub`, `and`, `or`, `slt`, `addi`, `lw`). -/
theorem witness_destinations : (1 : RegIdx) ≠ 0#5 ∧ (31 : RegIdx) ≠ 0#5 ∧ (32 : RegIdx) = 0#5 := by decide

theorem witness_RegisterZeroIsHardwired :
    (1 : RegIdx) ≠ 0#5 ∧ ∃ t, exec (.addi 0 0 5) State.reset = .next t := ⟨by decide, _, rfl⟩

/-- The ends of the allowed `MEM_WORDS`, and an address in bounds at both ends of the memory. -/
theorem witness_WrappedAddressAgreesInBounds :
    Params.Valid ⟨1, 0, .truncate⟩ ∧ Params.Valid ⟨2 ^ 31 - 2 ^ 15, 2 ^ 31, .refuse⟩ ∧
      State.reset.inBounds (effectiveAddress 0 0) ∧ State.reset.inBounds (effectiveAddress 256 0xFFFF) ∧
      ¬ State.reset.inBounds (effectiveAddress 256 0) ∧ ¬ State.reset.inBounds (effectiveAddress 0 0xFFFF) := by decide

theorem witness_LwLoadsTheCell :
    State.reset.inBounds (effectiveAddress (State.reset.readReg 0) 0) ∧
      State.reset.inBounds (effectiveAddress (State.reset.readReg 0) 255) := by decide

theorem witness_SwStoresTheRegister :
    Memory.wf [(0, 7), (255, 1)] ∧ Memory.wf State.reset.dmem ∧ State.reset.inBounds (effectiveAddress (State.reset.readReg 0) 0) ∧
      State.reset.inBounds (effectiveAddress (State.reset.readReg 0) 255) := by decide

theorem witness_OutOfBoundsAccessRaises :
    effectiveAddress (State.reset.readReg 0) 0xFFFF < 0 ∧
      (State.reset.params.memWords : Int) ≤ effectiveAddress (State.reset.readReg 0) 256 := by decide

theorem witness_StoreThenLoadReturnsTheValue :
    Memory.wf State.reset.dmem ∧ State.reset.inBounds (effectiveAddress (State.reset.readReg 9) 255) ∧ (8 : RegIdx) ≠ 0#5 := by decide

theorem witness_LoadThenStoreRoundTrips :
    Memory.wf State.reset.dmem ∧ State.reset.inBounds (effectiveAddress (State.reset.readReg 9) 0) ∧ (8 : RegIdx) ≠ 0#5 ∧
      (8 : RegIdx) ≠ 9 := by decide

/-- A running state at index `i` of a program whose every word is a `beq $t0, $zero` packed at `i` for the label `l`. -/
def branchAt (i l : Nat) (x8 : Word) : State :=
  { (State.reset.writeReg 8#5 x8).setPc (BitVec.ofNat 32 i) with
    status := .run
    imem := List.replicate (i + 1) (encode ((AsmInstr.b .beq 8#5 0#5 l).toInstr i)) }

theorem branchAt_fetch (i l : Nat) (x8 : Word) (h : i < 2 ^ 31) :
    (branchAt i l x8).status = .run ∧ (branchAt i l x8).pc = BitVec.ofNat 32 i ∧
      (branchAt i l x8).fetch = some (encode ((AsmInstr.b .beq 8#5 0#5 l).toInstr i)) := by
  refine ⟨rfl, rfl, ?_⟩
  have hpc : (branchAt i l x8).pc.toNat = i := Nat.mod_eq_of_lt (by omega)
  rw [State.fetch, hpc]
  simp [branchAt]

/-- The largest reach forwards and backwards, one past each, equal and unequal registers. -/
theorem witness_BranchReachesItsLabel :
    (branchAt 0 32768 0).fetch = some (encode ((AsmInstr.b .beq 8#5 0#5 32768).toInstr 0)) ∧
      (branchAt 0 32769 1).fetch = some (encode ((AsmInstr.b .beq 8#5 0#5 32769).toInstr 0)) ∧
      (branchAt 32767 0 0).fetch = some (encode ((AsmInstr.b .beq 8#5 0#5 0).toInstr 32767)) ∧
      (branchAt 32768 0 0).fetch = some (encode ((AsmInstr.b .beq 8#5 0#5 0).toInstr 32768)) ∧
      (branchAt 0 32768 0).readReg 0#5 = (branchAt 0 32768 0).readReg 8#5 ∧
      (branchAt 0 32769 1).readReg 0#5 ≠ (branchAt 0 32769 1).readReg 8#5 ∧
      branchOffset 0 32768 = 2 ^ 15 - 1 ∧ branchOffset 0 32769 = 2 ^ 15 ∧ branchOffset 32767 0 = -(2 ^ 15) ∧
      branchOffset 32768 0 = -(2 ^ 15) - 1 :=
  ⟨(branchAt_fetch _ _ _ (by decide)).2.2, (branchAt_fetch _ _ _ (by decide)).2.2, (branchAt_fetch _ _ _ (by decide)).2.2,
    (branchAt_fetch _ _ _ (by decide)).2.2, by decide, by decide, by decide, by decide, by decide, by decide⟩

/-- A register with itself, and two registers that hold equal values. -/
theorem witness_SelfBranchRepeats :
    (machine [] [] 4 0x1000FFFF).status = .run ∧ (machine [] [] 4 0x1000FFFF).fetch = some (encode (.beq 0#5 0#5 0xFFFF)) ∧
      (machine [(8, 7), (9, 7)] [] 4 0x1128FFFF).fetch = some (encode (.beq 8#5 9#5 0xFFFF)) ∧
      (machine [(8, 7), (9, 7)] [] 4 0x1128FFFF).readReg 9#5 = (machine [(8, 7), (9, 7)] [] 4 0x1128FFFF).readReg 8#5 := by decide

theorem witness_StepRunsTheDecodedInstruction :
    (machine [] [] 4 0x01095020).status = .run ∧ (machine [] [] 4 0x01095020).imem[4]? = some 0x01095020#32 ∧
      (machine [] [] 4 0x01095020).pc.toNat = 4 ∧ decode 0x01095020 = .ok (.add 10 8 9 0) := by decide

/-- An encoded-only word and a word of no row. -/
theorem witness_WordsOutsideTheTableRaise :
    (machine [] [] 4 0).status = .run ∧ (machine [] [] 4 0).fetch = some 0#32 ∧
      (∀ m, executed m = true → 0#32 &&& m.mask ≠ m.pattern) ∧ (machine [] [] 4 0x01095027).fetch = some 0x01095027#32 ∧
      ∀ m, executed m = true → 0x01095027#32 &&& m.mask ≠ m.pattern := by
  refine ⟨by decide, by decide, ?_, by decide, ?_⟩ <;> intro m <;> rcases m with op | op | op | _ <;> (try cases op) <;> decide

/-- At the end of the program and in an empty one; a halted next state; a stopped engine. -/
theorem witness_ExhaustionHalts :
    ({ machine [] [] 0 0x01095020 with pc := 1 }).status = .run ∧
      ({ machine [] [] 0 0x01095020 with pc := 1 }).imem.length ≤ ({ machine [] [] 0 0x01095020 with pc := 1 }).pc.toNat ∧
      State.reset.status = .run ∧ State.reset.imem.length ≤ State.reset.pc.toNat ∧ statusAfter State.reset = some .halt ∧
      ({ State.reset with status := .halt }).status ≠ .run := by decide

/-- A running state and a stopped one. -/
theorem witness_RunningEngineAlwaysSteps :
    State.reset.status = .run ∧ ({ State.reset with status := .halt }).status ≠ .run := by decide

theorem witness_StepMatchesPseudocode : (machine [(8, 1)] [] 4 0x11280005).status = .run := by decide

/-- The hypothesis of the statements about every step: a state with a next one. -/
theorem witness_StepKeepsLoadedObjects : ∃ t, step (machine [(8, 4), (9, 3)] [] 3 0x01095020) = .next t := ⟨_, rfl⟩

theorem witness_EngineIgnoresLoadTables :
    SameEngineState (machine [] [] 0 0x01095020) { machine [] [] 0 0x01095020 with textSegment := [[]], dataSegment := [([], 3)] } ∧
      ∃ t, step (machine [] [] 0 0x01095020) = .next t := ⟨⟨rfl, rfl, rfl, rfl, rfl, rfl⟩, _, rfl⟩

/-- A step that changes a cell, and one that changes a register. -/
theorem witness_StepChangesAtMostOnePlace :
    Memory.wf (machine [(10, 30)] [(5, 5)] 0 0xAC0A0000).dmem ∧
      (∃ t, step (machine [(10, 30)] [(5, 5)] 0 0xAC0A0000) = .next t ∧
        Memory.read t.dmem 0 ≠ Memory.read (machine [(10, 30)] [(5, 5)] 0 0xAC0A0000).dmem 0) ∧
      ∃ t, step (machine [(8, 4)] [] 0 0x01005025) = .next t ∧ t.readReg 10 ≠ (machine [(8, 4)] [] 0 0x01005025).readReg 10 :=
  ⟨by decide, ⟨_, rfl, by decide⟩, _, rfl, by decide⟩

theorem witness_OnlySwChangesMemory :
    ∃ t, step (machine [(10, 30)] [] 0 0xAC0A0000) = .next t ∧ t.dmem ≠ (machine [(10, 30)] [] 0 0xAC0A0000).dmem :=
  ⟨_, rfl, by decide⟩

/-- A taken branch and an exhausted fetch. -/
theorem witness_OnlyBeqBranches :
    (∃ t, step (machine [] [] 0 0x10000001) = .next t ∧ t.pc ≠ (machine [] [] 0 0x10000001).pc + 1#32) ∧
      ∃ t, step State.reset = .next t ∧ t.pc ≠ State.reset.pc + 1#32 := ⟨⟨_, rfl, by decide⟩, _, rfl, by decide⟩

/-- Both errors of the execution phase. -/
theorem witness_FaultsArePrecise :
    (∃ t, step (machine [] [] 2 0) = .next t ∧ t.status = .fault .unsupportedOperation 2 0) ∧
      ∃ t, step (machine [] [] 2 0x8C080100) = .next t ∧ t.status = .fault .memoryOutOfBounds 2 256 :=
  ⟨⟨_, rfl, by decide⟩, _, rfl, by decide⟩

theorem witness_EndedRunIsFinal : (run 1 State.reset).status ≠ .run ∧ (run 2 (machine [] [] 0 0x01095020)).status ≠ .run := by decide

/-- A cycle that writes a register, one that writes a cell, and one that writes nothing. -/
theorem witness_ObservationTellsTheDelta :
    Memory.wf (machine [(10, 30)] [(5, 5)] 0 0xAC0A0000).dmem ∧
      (observe (machine [(10, 30)] [(5, 5)] 0 0xAC0A0000)).map (·.memWrite) = some (some (0, 30)) ∧
      (observe (machine [(8, 4)] [] 0 0x01005025)).map (·.regWrite) = some (some (10, 4)) ∧
      (observe (machine [] [] 0 0x20000005)).map (·.regWrite) = some none := by decide

/-- The text of a program with a data label. -/
def sample : List Text := lines [".data", "v: .word 9", ".text", "lw $t0, v", "x: beq $zero, $t0, x"]

theorem sample_loads (o : ImmOverflow) :
    ((load ⟨256, 2 ^ 26, o⟩ sample).toOption.map fun s => (s.imem, s.dataSegment)) =
      some ([0x8C080009, 0x1100FFFF], [("v".toList, 9)]) := by cases o <;> decide

theorem toOption_some {α ε : Type} {x : Except ε α} {f : α → List Word × List (Text × Word)} {b}
    (h : (x.toOption.map f) = some b) : ∃ a, x = .ok a ∧ f a = b := by
  cases x with
  | error e => simp [Except.toOption] at h
  | ok a => exact ⟨a, rfl, by simpa [Except.toOption] using h⟩

/-- Also the hypothesis of `LoadedStateIsTheResetState`. -/
theorem witness_InvariantAfterLoad : Params.default.Valid ∧ ∃ s, load Params.default sample = .ok s := by
  obtain ⟨s, h, -⟩ := toOption_some (sample_loads .truncate)
  exact ⟨by decide, s, h⟩

/-- Register 10 is written by no cycle of two steps from the start of an empty program. -/
theorem witness_RegistersStartAtZero :
    ∃ s, load Params.default [".text".toList] = .ok s ∧
      ∀ m o v, m < 2 → observe (run m s) = some o → o.regWrite ≠ some (10#5, v) := by
  refine ⟨State.created Params.default [] [] [] [], by decide, fun m o v hm => ?_⟩
  have h : ∀ n, n < 2 → observe (run n (State.created Params.default [] [] [] [])) = none := by decide
  rw [h m hm]
  intro ho
  cases ho

theorem witness_SeededCellsHoldTheirAddress :
    (∃ s, load Params.default sample = .ok s ∧ (("v".toList, 9) : Text × Word) ∈ s.dataSegment) ∧
      Memory.wf State.reset.dmem ∧ (∃ t, seed [([], 255)] State.reset = .ok t) ∧ (255#32).toInt ≠ 254 := by
  obtain ⟨s, h, h2⟩ := toOption_some (sample_loads .truncate)
  exact ⟨⟨s, h, by simp [(Prod.mk.inj h2).2]⟩, by decide, ⟨_, rfl⟩, by decide⟩

theorem witness_RefuseIsConservative : ∃ s, load { Params.default with immOverflow := .refuse } sample = .ok s := by
  obtain ⟨s, h, -⟩ := toOption_some (sample_loads .refuse)
  exact ⟨s, h⟩

/-- A running state with a program, in the invariant, and its next state. -/
theorem witness_StepKeepsInvariant :
    Inv { machine [] [] 0 0x01095020 with textSegment := [[]] } ∧
      ∃ t, step { machine [] [] 0 0x01095020 with textSegment := [[]] } = .next t :=
  ⟨⟨by decide, by decide, by decide, by decide, by decide, by decide, by decide, by decide, by decide, trivial⟩, _, rfl⟩

theorem witness_CanonicalMemoryIsUnique : Memory.wf [(0, 7), (255, 1)] ∧ Memory.wf [] := by decide

theorem witness_BlankAndDirectiveLinesAddNothing :
    strip [] = [] ∧ strip " \t ".toList = [] ∧ strip " .data".toList = ".data".toList ∧ strip ".text ".toList = ".text".toList := by
  decide

/-- A label with white space on all sides of it, before an instruction and alone; names that are no label or not new; a line
without a colon. -/
theorem witness_LabelTakesTheCurrentLength :
    ({ Scan.start with current := some .text }).current = some .text ∧ AllSpace [' ', ' '] ∧ AllSpace ['\t'] ∧
      isLabelName "loop".toList = true ∧ strip " j x ".toList ≠ [] ∧ strip [' '] = [] ∧
      "loop".toList ∉ (Scan.start.labelAddress.map fun e => e.1) ∧ isLabelName (strip "1st".toList) = false ∧
      strip " a ".toList ∈ [("a".toList, 0)].map (fun e => e.1) ∧ ':' ∉ " j x ".toList ∧
      strip " j x ".toList ≠ ".data".toList ∧ strip " j x ".toList ≠ ".text".toList := by
  refine ⟨rfl, by simp [AllSpace, isSpace], by simp [AllSpace, isSpace], by decide, by decide, by decide, by simp [Scan.start],
    by decide, by decide, by simp, by decide, by decide⟩

/-- The ends of the value range and one past each, a value that is no decimal integer, a line without a value. -/
theorem witness_DataLineDeclaresItsFirstValue :
    ({ Scan.start with current := some .data }).current = some .data ∧ AllSpace [' '] ∧ isLabelName ['v'] = true ∧
      ['v'] ∉ (Scan.start.dataSegment.map fun e => e.1) ∧ IsToken ['.', 'w'] ∧ isSeparator ',' = true ∧ IsToken ['9'] ∧
      decimalInt "-2147483648".toList = some (-(2 ^ 31)) ∧ decimalInt "2147483647".toList = some (2 ^ 31 - 1) ∧
      decimalInt "-2147483649".toList = some (-(2 ^ 31) - 1) ∧ decimalInt "2147483648".toList = some (2 ^ 31) ∧
      decimalInt "0x10".toList = none ∧ ':' ∉ ['v'] ∧ isLabelName (strip ['1']) = false := by
  refine ⟨rfl, by simp [AllSpace, isSpace], by decide, by simp [Scan.start], by simp [IsToken, isSeparator, isSpace], by decide,
    by simp [IsToken, isSeparator, isSpace], by decide, by decide, by decide, by decide, by decide, by simp, by decide⟩

theorem witness_ResolvedMapsAreSound : ∃ k, resolve Params.default sample = .ok k := by
  obtain ⟨s, h, -⟩ := toOption_some (sample_loads .truncate)
  unfold load at h
  cases hr : resolve Params.default sample with
  | ok k => exact ⟨k, rfl⟩
  | error e =>
    change (match resolve Params.default sample with
      | .error e => Except.error e
      | .ok k => _) = _ at h
    simp [hr] at h

theorem witness_EncoderEmitsWellFormedWords : wordOf "nor $t2, $t0, $t1" 0 = some 0x01095027 := by decide

theorem witness_UnknownMnemonicIsUnsupported :
    lineMnemonic "ADD $t0, $t0, $t0".toList ∉ mnemonicTexts ∧ lineMnemonic "j x".toList ∈ mnemonicTexts := by decide

/-- A line of each form: R-format, branch, (a), (b), (c1), (c2), `j`; the ends of 16 bits and one past; and pieces to split. -/
theorem witness_OperandTokensFillTheirFields :
    AllSpace [' '] ∧ isSpace 'j' = false ∧ ',' ∉ ['x'] ∧
      lineOperands "sub $1, $2, $3".toList = ["$1".toList, "$2".toList, "$3".toList] ∧
      findMnemonic (lineMnemonic "sub $1, $2, $3".toList) = some (.r .sub) ∧
      parseRegister "$1".toList = some 1 ∧ parseRegister "$2".toList = some 2 ∧ parseRegister "$3".toList = some 3 ∧
      findMnemonic (lineMnemonic "bne $1, $2, L".toList) = some (.b .bne) ∧ lookupLabel [(['L'], 6)] ['L'] = some 6 ∧
      findMnemonic (lineMnemonic "addi $1, $2, -32768".toList) = some (.i .addi) ∧
      decimalInt "-32768".toList = some (-(2 ^ 15)) ∧ decimalInt "32768".toList = some (2 ^ 15) := by
  refine ⟨by simp [AllSpace, isSpace], by decide, by simp, by decide, by decide, by decide, by decide, by decide, by decide,
    by decide, by decide, by decide, by decide⟩

/-- The single-operand and the two-operand lines of the same statement. -/
theorem witness_OperandTokensFillTheirFields_short :
    lineOperands "sw $1, 4 ( $2 ) ".toList = ["$1".toList, "4 ".toList ++ '(' :: (" $2 ".toList ++ [')'])] ∧ '(' ∉ ['4', ' '] ∧
      ')' ∉ [' ', '$', '2', ' '] ∧ strip "4 ".toList = ['4'] ∧ strip " $2 ".toList = "$2".toList ∧
      lineOperands "lw $1, v".toList = ["$1".toList, ['v']] ∧ '(' ∉ ['v'] ∧ lookupLabel [(['v'], 5#32)] ['v'] = some 5#32 ∧
      lineOperands "lw $1, $2".toList = ["$1".toList, "$2".toList] ∧ lookupLabel [(['v'], 5#32)] "$2".toList = none ∧
      findMnemonic (lineMnemonic "j L".toList) = some .j ∧ lineOperands "j L".toList = [['L']] := by
  refine ⟨by decide, by simp, by simp, by decide, by decide, by decide, by simp, by decide, by decide, by decide, by decide, by decide⟩

theorem witness_RegisterTokens :
    registerNames[(31 : RegIdx).toNat]? = some "ra".toList ∧ decimalNat "031".toList = some (31 : RegIdx).toNat ∧
      parseRegister "$32".toList = none ∧ parseRegister "ra".toList = none ∧ parseRegister "$".toList = none := by decide

/-- The three clauses: a data label, a register, and neither. -/
theorem witness_DataLabelShorthand :
    parseRegister "$t0".toList = some 8#5 ∧ hasChar '(' "val".toList = false ∧
      lookupLabel [("val".toList, 5#32)] "val".toList = some 5#32 ∧ hasChar '(' "$t1".toList = false ∧
      lookupLabel [("val".toList, 5#32)] "$t1".toList = none ∧ parseRegister "$t1".toList = some 9#5 ∧
      lookupLabel [("val".toList, 5#32)] "vall".toList = none ∧ parseRegister "vall".toList = none := by decide

theorem witness_BranchDependsOnDistanceOnly :
    findMnemonic (lineMnemonic "beq $t0, $t1, L".toList) = some (.b .beq) ∧
      SameDistances [("L".toList, 2)] [("L".toList, 5)] 0 3 := by
  refine ⟨by decide, fun name => ?_⟩
  cases h : (['L'] == name) <;> simp [lookupLabel, List.find?, h, branchOffset]

/-- A program that encodes, and one whose second line raises an error. -/
theorem witness_ProgramEncodesLineByLine :
    encodeProgram .truncate { Scan.start with textSegment := lines ["add $t0, $t0, $t0"] } = .ok [0x01084020] ∧
      encodeProgram .truncate { Scan.start with textSegment := lines ["add $t0, $t0, $t0", "j"] } =
        .error (.encoding 1 "j".toList .parseError) := by decide

theorem witness_SeedingOutOfBoundsStopsTheLoad :
    (¬ State.reset.inBounds (256#32).toInt) ∧ State.reset.inBounds (255#32).toInt ∧ ¬ State.reset.inBounds (0xFFFFFFFF#32).toInt := by
  decide

/-- An error of each phase before execution; those of execution are in `witness_FaultsArePrecise`. -/
theorem witness_LoadErrorsByPhase :
    resolve Params.default [] = .error .missingText ∧
      encodeProgram Params.default.immOverflow { Scan.start with textSegment := [['j']] } = .error (.encoding 0 ['j'] .parseError) ∧
      seed [([], 256)] State.reset = .error (.seeding 256) ∧ load Params.default [] = .error .missingText := by decide

end Sys2Proof.Tests
end

section
/-! SUPPORT. Which registers an instruction, a step and a run leave unchanged, and what they read after a load. -/

namespace Sys2Proof.Machine

variable {s t : State}

/-! ### One instruction -/

/-- Every instruction keeps the unused slot of register 0 (R21, R127). -/
theorem Effect.slot_zero {i : Instr} (h : Effect i s t) : t.regs[0] = s.regs[0] := by
  cases h with
  | register d v hd hx => exact writeReg_slot_zero s v d
  | store rt rs imm hi hb => rfl
  | taken rt rs imm hi he => rfl
  | notTaken rt rs imm hi he => rfl
  | outOfBounds rt rs imm hi hb => rfl
  | unsupported hx => rfl

/-- An instruction changes no register but its destination, which is not register 0, and then it raises nothing (R127, R133). -/
theorem Effect.readReg_eq_or_destination {i : Instr} (h : Effect i s t) (r : RegIdx) :
    t.readReg r = s.readReg r ∨ (destination i = some r ∧ r ≠ 0#5 ∧ t.status = s.status) := by
  cases h with
  | register d v hd hx =>
    by_cases hr : r = d ∧ d ≠ 0#5
    · obtain ⟨rfl, h0⟩ := hr
      exact .inr ⟨hd, h0, writeReg_status ..⟩
    · exact .inl (by rw [readReg_writeReg, if_neg hr])
  | store rt rs imm hi hb => exact .inl rfl
  | taken rt rs imm hi he => exact .inl rfl
  | notTaken rt rs imm hi he => exact .inl rfl
  | outOfBounds rt rs imm hi hb => exact .inl rfl
  | unsupported hx => exact .inl rfl

/-! ### One step -/

/-- A cycle that fetched a word is observed (R136). -/
theorem observe_of_step {w : Word} (h : step s = .next t) (hf : s.fetch = some w) :
    observe s = some (observation s w t) := by
  obtain ⟨hs, -⟩ := step_cases h
  simp only [observe, hs, hf, h]

/-- The tuple of a completed instruction reports the write of its destination (R136). -/
theorem observation_regWrite {w : Word} {i : Instr} {r : RegIdx} (hd : decode w = .ok i) (ht : t.status = .run)
    (hi : destination i = some r) (h0 : r ≠ 0#5) : (observation s w t).regWrite = some (r, t.readReg r) := by
  simp only [observation, hd, ht, regDelta, hi, if_true, if_neg h0]

/-- A step keeps a register or its tuple reports the register's new value (R136). -/
theorem step_readReg_eq_or_observed (h : step s = .next t) (r : RegIdx) :
    t.readReg r = s.readReg r ∨ ∃ o, observe s = some o ∧ o.regWrite = some (r, t.readReg r) := by
  obtain ⟨hs, hc⟩ := step_cases h
  cases hc with
  | exhausted hf => exact .inl rfl
  | unlisted w e hf hd => exact .inl rfl
  | instr w i t hf hd he =>
    rcases he.readReg_eq_or_destination r with hr | ⟨hi, h0, hst⟩
    · exact .inl hr
    · exact .inr ⟨_, observe_of_step h hf, observation_regWrite hd (hst.trans hs) hi h0⟩

/-! ### A run -/

/-- A run goes on from the next state (R134). -/
theorem run_succ_of_next (n : Nat) (h : step s = .next t) : run (n + 1) s = run n t := by
  rw [run, h]

/-- A run stays where there is no next state (R134, R186). -/
theorem run_succ_of_no_next (n : Nat) (h : ¬ ∃ t, step s = .next t) : run (n + 1) s = s := by
  rw [run]
  split
  case h_1 t ht => exact absurd ⟨t, ht⟩ h
  all_goals rfl

/-- No cycle among the first `n` of the run from `s` reports a write of register `i`. -/
def NotWritten (i : RegIdx) (n : Nat) (s : State) : Prop :=
  ∀ m o v, m < n → observe (run m s) = some o → o.regWrite ≠ some (i, v)

/-- What no cycle of a run writes, no cycle of the run from its next state writes. -/
theorem NotWritten.of_next {i : RegIdx} {n : Nat} (h : NotWritten i (n + 1) s) (hs : step s = .next t) :
    NotWritten i n t := by
  intro m o v hm ho
  rw [← run_succ_of_next m hs] at ho
  exact h (m + 1) o v (Nat.succ_lt_succ hm) ho

/-- A run keeps every register that none of its cycles writes. -/
theorem run_readReg_of_notWritten {i : RegIdx} {n : Nat} (h : NotWritten i n s) : (run n s).readReg i = s.readReg i := by
  induction n generalizing s with
  | zero => rfl
  | succ n ih =>
    by_cases hn : ∃ t, step s = .next t
    · obtain ⟨t, hs⟩ := hn
      rw [run_succ_of_next n hs, ih (h.of_next hs)]
      rcases step_readReg_eq_or_observed hs i with hr | ⟨o, ho, hw⟩
      · exact hr
      · exact absurd hw (h 0 o _ (Nat.succ_pos n) ho)
    · rw [run_succ_of_no_next n hn]

/-! ### A load -/

/-- Every register reads 0 in a created state (R22, R38). -/
@[simp] theorem readReg_created (p : Params) (ds : List (Text × Word)) (la : List (Text × Nat)) (ts : List Text)
    (program : List Word) (i : RegIdx) : (State.created p ds la ts program).readReg i = 0#32 := by
  simp [State.readReg, State.created, Config.regInit]

/-- Seeding changes no register (R47). -/
theorem SeededFrom.readReg (h : SeededFrom s t) (i : RegIdx) : t.readReg i = s.readReg i :=
  readReg_congr (congrArg State.regs h) i

/-- Every register reads 0 after a load (R22, R183). -/
theorem load_readReg {p : Params} {lines : List Text} (h : load p lines = .ok s) (i : RegIdx) : s.readReg i = 0#32 := by
  obtain ⟨k, program, -, -, hseed⟩ := load_eq_ok h
  obtain ⟨hfrom, -⟩ := seed_eq_ok hseed
  rw [hfrom.readReg i, readReg_created]

end Sys2Proof.Machine
end

section
/-! The statements of the family `10_state.md`. -/

namespace Sys2Proof.Machine

/-- Settles O9, by the register laws and the effects of an instruction. -/
theorem registerZeroIsHardwired : Obligations.RegisterZeroIsHardwired := by
  intro s i v
  refine ⟨readReg_zero s, writeReg_zero s v, readReg_writeReg_self s i v, writeReg_onlyRegister s v i, fun ins t h => ?_⟩
  exact ⟨readReg_zero t, (exec_next h).slot_zero⟩

/-- Settles O53, by induction on the number of steps. -/
theorem registersStartAtZero : Obligations.RegistersStartAtZero := by
  intro p lines s h
  exact ⟨load_readReg h, fun i n hw => (run_readReg_of_notWritten hw).trans (load_readReg h i)⟩

end Sys2Proof.Machine
end

section
/-! SUPPORT. The data memory under seeding (spec/20_memory.md R47): one equation for a seeding step, and what a cell reads
when seeding has finished. -/

namespace Sys2Proof.Machine

variable {ds : List (Text × Word)} {s t : State}

/-- A seeding that finishes has written its first value, in bounds, and goes on from there (R47, R48). -/
theorem seed_cons_eq_ok {e : Text × Word} :
    seed (e :: ds) s = .ok t ↔
      s.inBounds e.2.toInt ∧ seed ds { s with dmem := Memory.write s.dmem e.2.toInt.toNat e.2 } = .ok t := by
  rw [seed]
  cases hw : s.memWrite e.2.toInt e.2 with
  | none => simp [memWrite_eq_none.1 hw]
  | some s1 =>
    obtain ⟨hb, rfl⟩ := memWrite_eq_some.1 hw
    exact (and_iff_right hb).symm

/-- Seeding leaves a cell whose address is no data value as it was (R47). -/
theorem seed_read_of_not_value (hm : Memory.wf s.dmem) (h : seed ds s = .ok t) {a : Nat}
    (ha : ∀ e ∈ ds, e.2.toInt ≠ (a : Int)) : Memory.read t.dmem a = Memory.read s.dmem a := by
  induction ds generalizing s with
  | nil => cases h; rfl
  | cons e rest ih =>
    obtain ⟨hb, hr⟩ := seed_cons_eq_ok.1 h
    obtain ⟨he, hrest⟩ := List.forall_mem_cons.1 ha
    have hne : a ≠ e.2.toInt.toNat := by
      have := hb.1
      omega
    rw [ih (Memory.wf_write hm _ _) hr hrest, Memory.read_write hm, if_neg hne]

/-- After seeding, the cell at a data value holds that value. A later write to the cell is of the same value, since a value
is its own address (R47). -/
theorem seed_read_of_value (hm : Memory.wf s.dmem) (h : seed ds s = .ok t) {e : Text × Word} (he : e ∈ ds) :
    Memory.read t.dmem e.2.toInt.toNat = e.2 := by
  induction ds generalizing s e with
  | nil => cases he
  | cons d rest ih =>
    obtain ⟨hb, hr⟩ := seed_cons_eq_ok.1 h
    have hm' := Memory.wf_write hm d.2.toInt.toNat d.2
    rcases List.mem_cons.1 he with rfl | he
    · by_cases hagain : ∃ c ∈ rest, c.2 = e.2
      · obtain ⟨c, hc, hce⟩ := hagain
        exact hce ▸ ih hm' hr hc
      · have hlast : ∀ c ∈ rest, c.2.toInt ≠ (e.2.toInt.toNat : Int) := fun c hc hce =>
          hagain ⟨c, hc, BitVec.eq_of_toInt_eq (hce.trans (Int.toNat_of_nonneg hb.1))⟩
        rw [seed_read_of_not_value hm' hr hlast, Memory.read_write hm, if_pos rfl]
    · exact ih hm' hr he

/-- The data memory of a created state is in canonical form: it lists no cell (R38). -/
theorem wf_created (p : Params) (ds : List (Text × Word)) (la : List (Text × Nat)) (ts : List Text)
    (program : List Word) : Memory.wf (State.created p ds la ts program).dmem := by
  simp [State.created, Memory.wf]

/-- A load ends in a seeding of its own data segment from a created state (R183). -/
theorem load_eq_seed {p : Params} {lines : List Text} (h : load p lines = .ok s) :
    ∃ la ts program, seed s.dataSegment (State.created p s.dataSegment la ts program) = .ok s := by
  obtain ⟨k, program, -, -, hseed⟩ := load_eq_ok h
  have hds : s.dataSegment = k.dataSegment := congrArg State.dataSegment (seed_eq_ok hseed).1
  exact ⟨_, _, _, hds ▸ hseed⟩

end Sys2Proof.Machine
end

section
/-! The statements of the family `20_memory.md`. -/

namespace Sys2Proof.Machine

/-- Settles O54, by induction on the data labels. -/
theorem seededCellsHoldTheirAddress : Obligations.SeededCellsHoldTheirAddress := by
  refine ⟨fun p lines s h e he => ?_, fun ds s t hm h a ha => seed_read_of_not_value hm h ha⟩
  obtain ⟨la, ts, program, hseed⟩ := load_eq_seed h
  obtain ⟨hfrom, hbounds⟩ := seed_eq_ok hseed
  have hparams : s.params = p := congrArg State.params hfrom
  refine ⟨?_, seed_read_of_value (wf_created ..) hseed he⟩
  simpa [State.inBounds, State.created, hparams] using hbounds e he

end Sys2Proof.Machine
end

section
/-! The statements of the family `30_encoding.md`. -/

namespace Sys2Proof.Machine

/-- Settles O4, field by field: each number is the one its extraction has (R60). -/
theorem fieldsOfEveryWord : Obligations.FieldsOfEveryWord := by
  intro w
  exact ⟨toNat_opcodeOf w, toNat_rsOf w, toNat_rtOf w, toNat_rdOf w, toNat_shamtOf w, toNat_functOf w, toNat_immOf w⟩

end Sys2Proof.Machine
end

section
/-! SUPPORT. What the scan does with a line that is no data line and no text line (spec/40_resolver.md R82 to R84): one equation
for a blank line and one for each directive. -/

namespace Sys2Proof.Machine

variable {line : Text}

/-- A blank line leaves the scan as it is (R84). -/
theorem scanLine_of_blank (h : strip line = []) (k : Scan) : scanLine line k = .ok k := by
  simp [scanLine, scanStripped, h]

/-- `.data` makes the data segment current and changes nothing else (R82, R84). -/
theorem scanLine_of_dataDirective (h : strip line = dataDirective) (k : Scan) :
    scanLine line k = .ok { k with current := some .data } := by
  simp [scanLine, scanStripped, h, dataDirective]

/-- `.text` makes the text segment current, notes that it was seen, and changes nothing else (R82 to R84). -/
theorem scanLine_of_textDirective (h : strip line = textDirective) (k : Scan) :
    scanLine line k = .ok { k with current := some .text, sawText := true } := by
  simp [scanLine, scanStripped, h, dataDirective, textDirective]

end Sys2Proof.Machine
end

section
/-! The statements of the family `40_resolver.md`. -/

namespace Sys2Proof.Machine

/-- Settles O43, by the scan's equations for a blank line and for each directive. -/
theorem blankAndDirectiveLinesAddNothing : Obligations.BlankAndDirectiveLinesAddNothing := by
  intro line k
  refine ⟨fun hblank => scanLine_of_blank hblank k, ?_⟩
  rintro (hdata | htext)
  · exact ⟨_, scanLine_of_dataDirective hdata k, rfl, rfl, rfl⟩
  · exact ⟨_, scanLine_of_textDirective htext k, rfl, rfl, rfl⟩

end Sys2Proof.Machine
end

section
/-! SUPPORT. The word of a packed instruction is one of the layouts of spec/30_encoding.md R57 and R58, and the 16-bit field of
an integer. -/

namespace Sys2Proof.Machine

/-- An R-format instruction is laid out with the funct of its mnemonic and `shamt` 0 (R57, R106). -/
theorem encode_packROp (op : ROp) (rd rs rt : RegIdx) :
    encode (packROp op rd rs rt) = packR op.funct rd rs rt 0#5 := by
  cases op <;> rfl

/-- A general I-format instruction is laid out with the opcode of its mnemonic (R58, R114). -/
theorem encode_packIOp (op : IOp) (rt rs : RegIdx) (v : Int) :
    encode (packIOp op rt rs v) = packI op.opcode rt rs (BitVec.ofInt 16 v) := by
  cases op <;> rfl

/-- A branch is laid out with the opcode of its mnemonic (R58, R108). -/
theorem encode_packBOp (op : BOp) (rt rs : RegIdx) (offset : Int) :
    encode (packBOp op rt rs offset) = packI op.opcode rt rs (BitVec.ofInt 16 offset) := by
  cases op <;> rfl

/-- The I-format layout with an integer in the 16-bit field: the field holds it modulo 2^16, whatever its sign (R61). -/
theorem toNat_packI_ofInt (opcode : BitVec 6) (rt rs : RegIdx) (v : Int) :
    ((packI opcode rt rs (BitVec.ofInt 16 v)).toNat : Int) =
      opcode.toNat * 2 ^ 26 + rs.toNat * 2 ^ 21 + rt.toNat * 2 ^ 16 + v % 2 ^ 16 := by
  have hfield : ((BitVec.ofInt 16 v).toNat : Int) = v % 2 ^ 16 := by
    rw [BitVec.toNat_ofInt, Int.toNat_of_nonneg (Int.emod_nonneg v (by decide))]
    rfl
  rw [toNat_packI]
  omega

end Sys2Proof.Machine
end

section
/-! SUPPORT. The encoding phase on a list of lines (spec/41_encoder.md R118): what it does with the first line, and from that
what a program and an error of the whole phase say about every line. -/

namespace Sys2Proof.Machine

variable {o : ImmOverflow} {ds : List (Text × Word)} {la : List (Text × Nat)} {n : Nat} {line : Text} {lines : List Text}

/-- A phase that finishes has encoded its first line, and then the rest. -/
theorem encodeFrom_cons_eq_ok {ws : List Word} :
    encodeFrom o ds la n (line :: lines) = .ok ws ↔
      ∃ w ws', ws = w :: ws' ∧ encodeLine o line ds la n = .ok w ∧ encodeFrom o ds la (n + 1) lines = .ok ws' := by
  rw [encodeFrom]
  cases encodeLine o line ds la n with
  | error e => simp
  | ok w =>
    cases encodeFrom o ds la (n + 1) lines with
    | error e => simp
    | ok ws' => simp [eq_comm]

/-- A phase that aborts does so at its first line, or encodes that line and aborts in the rest. -/
theorem encodeFrom_cons_eq_error {e : LoadError} :
    encodeFrom o ds la n (line :: lines) = .error e ↔
      (∃ e', e = .encoding n line e' ∧ encodeLine o line ds la n = .error e') ∨
        ((∃ w, encodeLine o line ds la n = .ok w) ∧ encodeFrom o ds la (n + 1) lines = .error e) := by
  rw [encodeFrom]
  cases encodeLine o line ds la n with
  | error e' => simp [eq_comm]
  | ok w => cases encodeFrom o ds la (n + 1) lines <;> simp

/-- The phase gives a program exactly when each line encodes to the program's word at its position. -/
theorem encodeFrom_eq_ok_iff {ws : List Word} :
    encodeFrom o ds la n lines = .ok ws ↔
      ws.length = lines.length ∧
        ∀ (i : Nat) (line : Text) (w : Word), lines[i]? = some line → ws[i]? = some w →
          encodeLine o line ds la (n + i) = .ok w := by
  induction lines generalizing n ws with
  | nil => simp [encodeFrom, eq_comm (a := [])]
  | cons line rest ih =>
    rw [encodeFrom_cons_eq_ok]
    constructor
    · rintro ⟨w, ws', rfl, hline, hrest⟩
      obtain ⟨hlength, hwords⟩ := ih.1 hrest
      refine ⟨by simp [hlength], fun i line' w' hl hw => ?_⟩
      cases i with
      | zero =>
        cases hl
        cases hw
        exact hline
      | succ i => exact Nat.succ_add_eq_add_succ n i ▸ hwords i line' w' hl hw
    · rintro ⟨hlength, hwords⟩
      cases ws with
      | nil => cases hlength
      | cons w ws' =>
        refine ⟨w, ws', rfl, hwords 0 line w rfl rfl, ih.2 ⟨by simpa using hlength, fun i line' w' hl hw => ?_⟩⟩
        exact Nat.succ_add_eq_add_succ n i ▸ hwords (i + 1) line' w' hl hw

/-- Line `i` of a list that stands at index `n` is the first that does not encode, and `e` is the error it raises. -/
def FirstFailure (o : ImmOverflow) (ds : List (Text × Word)) (la : List (Text × Nat)) (n : Nat) (lines : List Text)
    (i : Nat) (line : Text) (e : EncodeError) : Prop :=
  lines[i]? = some line ∧ encodeLine o line ds la (n + i) = .error e ∧
    ∀ (j : Nat) (line' : Text), j < i → lines[j]? = some line' → ∃ w, encodeLine o line' ds la (n + j) = .ok w

/-- The first line is the first failure exactly when it does not encode. -/
theorem firstFailure_cons_zero {line' : Text} {e : EncodeError} :
    FirstFailure o ds la n (line :: lines) 0 line' e ↔ line = line' ∧ encodeLine o line' ds la n = .error e := by
  simp [FirstFailure]

/-- A later line is the first failure exactly when the first line encodes and the rest fails there first. -/
theorem firstFailure_cons_succ {i : Nat} {line' : Text} {e : EncodeError} :
    FirstFailure o ds la n (line :: lines) (i + 1) line' e ↔
      (∃ w, encodeLine o line ds la n = .ok w) ∧ FirstFailure o ds la (n + 1) lines i line' e := by
  simp only [FirstFailure, List.getElem?_cons_succ, Nat.succ_add_eq_add_succ n]
  constructor
  · rintro ⟨hget, hfails, hbefore⟩
    exact ⟨hbefore 0 line i.succ_pos rfl, hget, hfails, fun j l hj hl => hbefore (j + 1) l (Nat.succ_lt_succ hj) hl⟩
  · rintro ⟨hfirst, hget, hfails, hbefore⟩
    refine ⟨hget, hfails, fun j l hj hl => ?_⟩
    cases j with
    | zero =>
      cases hl
      exact hfirst
    | succ j => exact hbefore j l (Nat.lt_of_succ_lt_succ hj) hl

/-- The phase aborts exactly with the error of the first failing line. -/
theorem encodeFrom_eq_error_iff {e : LoadError} :
    encodeFrom o ds la n lines = .error e ↔
      ∃ i line e', e = .encoding (n + i) line e' ∧ FirstFailure o ds la n lines i line e' := by
  induction lines generalizing n with
  | nil => simp [encodeFrom, FirstFailure]
  | cons line rest ih =>
    rw [encodeFrom_cons_eq_error, ih]
    constructor
    · rintro (⟨e', rfl, hline⟩ | ⟨hline, i, l, e', rfl, hrest⟩)
      · exact ⟨0, line, e', rfl, firstFailure_cons_zero.2 ⟨rfl, hline⟩⟩
      · exact ⟨i + 1, l, e', by rw [Nat.succ_add_eq_add_succ], firstFailure_cons_succ.2 ⟨hline, hrest⟩⟩
    · rintro ⟨i, l, e', rfl, hfails⟩
      cases i with
      | zero =>
        obtain ⟨rfl, hline⟩ := firstFailure_cons_zero.1 hfails
        exact .inl ⟨e', rfl, hline⟩
      | succ i =>
        obtain ⟨hline, hrest⟩ := firstFailure_cons_succ.1 hfails
        exact .inr ⟨hline, i, l, e', by rw [Nat.succ_add_eq_add_succ], hrest⟩

/-- A load whose encoding phase aborts raises that phase's error (R118, R183). -/
theorem load_of_encodeProgram_error {p : Params} {k : Scan} {e : LoadError} (hr : resolve p lines = .ok k)
    (he : encodeProgram p.immOverflow k = .error e) : load p lines = .error e := by
  simp [load, hr, he]

end Sys2Proof.Machine
end

section
/-! The statements of the family `41_encoder.md`. -/

namespace Sys2Proof.Machine

/-- Settles O6, from the R-format layout with `shamt` 0. -/
theorem packedRFormatWord : Obligations.PackedRFormatWord := by
  intro op rd rs rt index
  rw [AsmInstr.toInstr, encode_packROp, toNat_packR]
  simp

/-- Settles O7, from the I-format layout with an integer in its 16-bit field. -/
theorem packedIFormatWord : Obligations.PackedIFormatWord := by
  intro op rt rs v index
  rw [AsmInstr.toInstr, encode_packIOp, toNat_packI_ofInt]

/-- Settles O8, from the same layout with the branch offset in the field. -/
theorem packedBranchWord : Obligations.PackedBranchWord := by
  intro op rt rs target index
  rw [AsmInstr.toInstr, encode_packBOp, toNat_packI_ofInt, branchOffset]

/-- Settles O51, by induction on the lines: the whole phase is the case of a list that stands at index 0. -/
theorem programEncodesLineByLine : Obligations.ProgramEncodesLineByLine := by
  intro o k
  refine ⟨fun program => ?_, fun e => ?_, fun p lines e hr he => ?_⟩
  · simpa [encodeProgram] using encodeFrom_eq_ok_iff (n := 0) (lines := k.textSegment) (ws := program)
  · simpa [FirstFailure, encodeProgram, and_left_comm] using encodeFrom_eq_error_iff (n := 0) (lines := k.textSegment) (e := e)
  · exact load_of_encodeProgram_error hr he

end Sys2Proof.Machine
end

section
/-! SUPPORT. The row a decoded word belongs to (spec/30_encoding.md R66, R67): its opcode and funct, and its masked bits. -/

namespace Sys2Proof

variable {w : Word} {m : Mnemonic} {i : Instr}

/-- A decoded word has its row's opcode, and its row's funct where the row has one. -/
theorem decode_eq_ok (h : decode w = .ok i) :
    opcodeOf w = i.mnemonic.opcode ∧ ∀ f, i.mnemonic.funct = some f → functOf w = f := by
  unfold decode at h
  by_cases h0 : opcodeOf w = 0#6
  · rw [if_pos h0] at h
    unfold decodeR at h
    split_ifs at h with hf hf hf hf hf hf <;> cases h <;>
      exact ⟨h0, fun f e => hf.trans (Option.some.inj e)⟩
  · rw [if_neg h0] at h
    split_ifs at h with ho ho ho ho ho ho <;> cases h <;>
      exact ⟨ho, fun f e => nomatch e⟩

/-- The mask of an opcode row keeps the opcode and clears the rest. -/
theorem and_opcodeMask (w : Word) : w &&& 0xFC000000#32 = opcodeOf w ++ 0#26 := by
  have hmask : 0xFC000000#32 = BitVec.allOnes 6 ++ 0#26 := by decide
  rw [hmask]
  nth_rw 1 [← packJ_fields w]
  rw [packJ, BitVec.and_append, BitVec.and_allOnes, BitVec.and_zero]

/-- The mask of an R-format row keeps the funct of a word with opcode 0 and clears the rest. -/
theorem and_functMask (h : opcodeOf w = 0#6) : w &&& 0xFC00003F#32 = packR (functOf w) 0#5 0#5 0#5 0#5 := by
  have hmask : 0xFC00003F#32 = BitVec.allOnes 6 ++ 0#5 ++ 0#5 ++ 0#5 ++ 0#5 ++ BitVec.allOnes 6 := by decide
  rw [hmask]
  nth_rw 1 [← packR_fields w h]
  rw [packR, packR]
  iterate 5 rw [BitVec.and_append]
  simp only [BitVec.and_allOnes, BitVec.and_zero]

/-- The opcode and funct of a row give its masked bits (R66). -/
theorem and_mask_eq_pattern (ho : opcodeOf w = m.opcode) (hf : ∀ f, m.funct = some f → functOf w = f) :
    w &&& m.mask = m.pattern := by
  cases m with
  | r op =>
    rw [Mnemonic.mask, and_functMask ho, hf op.funct rfl]
    cases op <;> decide
  | i op =>
    rw [Mnemonic.mask, and_opcodeMask, ho]
    cases op <;> decide
  | b op =>
    rw [Mnemonic.mask, and_opcodeMask, ho]
    cases op <;> decide
  | j =>
    rw [Mnemonic.mask, and_opcodeMask, ho]
    decide

/-- A decoded word matches the mask and the pattern of its row (R66). -/
theorem decode_matches_row (h : decode w = .ok i) : w &&& i.mnemonic.mask = i.mnemonic.pattern := by
  obtain ⟨ho, hf⟩ := decode_eq_ok h
  exact and_mask_eq_pattern ho hf

end Sys2Proof
end

section
/-! SUPPORT. The cycle forwards: which next state a running engine has (spec/42_engine_cycle.md R124, R131), and which
`STATUS` an instruction leaves. -/

namespace Sys2Proof.Machine

variable {s t : State} {w : Word} {i : Instr}

/-! ### Fetch -/

/-- A fetch finds no word exactly at `pc >= N` (R123, R124). -/
theorem fetch_eq_none_iff : s.fetch = none ↔ s.imem.length ≤ s.pc.toNat := List.getElem?_eq_none_iff

/-- An exhausted fetch halts a running engine (R124). -/
theorem step_of_exhausted (hs : s.status = .run) (hf : s.fetch = none) : step s = .next (s.setStatus .halt) := by
  simp only [step, hs, runCycle, hf]

/-- A running engine executes the word it fetches, after the PC advance (R123, R131). -/
theorem step_of_fetch (hs : s.status = .run) (hf : s.fetch = some w) : step s = execWord w s.advancePc := by
  simp only [step, hs, runCycle, hf]

/-! ### Execute -/

theorem execWord_of_ok (hd : decode w = .ok i) (s : State) : execWord w s = exec i s := by
  simp only [execWord, hd]

/-- A word of no row raises `UnsupportedOperation` (R130, R67). -/
theorem execWord_of_error {e : DecodeError} (hd : decode w = .error e) (s : State) :
    execWord w s = .next (s.raiseUnsupported w) := by
  simp only [execWord, hd, execUnlisted]

/-- An instruction outside the dispatch table raises `UnsupportedOperation` and does nothing else (R130). -/
theorem Effect.eq_raiseUnsupported (h : Effect i s t) (hx : executed i.mnemonic = false) :
    t = s.raiseUnsupported (encode i) := by
  cases h with
  | unsupported _ => rfl
  | register d v hd hx' => exact absurd (hx.symm.trans hx') Bool.false_ne_true
  | store rt rs imm hi hb => subst hi; cases hx
  | taken rt rs imm hi he => subst hi; cases hx
  | notTaken rt rs imm hi he => subst hi; cases hx
  | outOfBounds rt rs imm hi hb => rcases hi with rfl | rfl <;> cases hx

theorem exec_of_not_executed (hx : executed i.mnemonic = false) (s : State) :
    exec i s = .next (s.raiseUnsupported (encode i)) := by
  obtain ⟨t, h, he⟩ := exec_effect i s
  rw [h, he.eq_raiseUnsupported hx]

/-- An instruction keeps `STATUS` or raises an error (R126, R168); it never halts. -/
theorem Effect.status_eq_or_fault (h : Effect i s t) :
    t.status = s.status ∨ ∃ cause index info, t.status = .fault cause index info := by
  cases h with
  | register d v hd hx => exact .inl (writeReg_status ..)
  | store rt rs imm hi hb => exact .inl rfl
  | taken rt rs imm hi he => exact .inl rfl
  | notTaken rt rs imm hi he => exact .inl rfl
  | outOfBounds rt rs imm hi hb => exact .inr ⟨_, _, _, raise_status ..⟩
  | unsupported hx => exact .inr ⟨_, _, _, raise_status ..⟩

/-- Every fetched word has a next state (R130). -/
theorem exists_execWord (w : Word) (s : State) : ∃ t, execWord w s = .next t := by
  cases hd : decode w with
  | error e => exact ⟨_, execWord_of_error hd s⟩
  | ok i =>
    obtain ⟨t, h, -⟩ := exec_effect i s
    exact ⟨t, (execWord_of_ok hd s).trans h⟩

/-! ### Step -/

/-- A running engine always has a next state (R124, R130). -/
theorem exists_step_of_run (hs : s.status = .run) : ∃ t, step s = .next t := by
  cases hf : s.fetch with
  | none => exact ⟨_, step_of_exhausted hs hf⟩
  | some w =>
    rw [step_of_fetch hs hf]
    exact exists_execWord w _

/-- Only an exhausted fetch halts the engine (R124). -/
theorem fetch_eq_none_of_step_halt (h : step s = .next t) (ht : t.status = .halt) : s.fetch = none := by
  obtain ⟨hs, hc⟩ := step_cases h
  cases hc with
  | exhausted hf => exact hf
  | unlisted w e hf hd => cases ht
  | instr w i t hf hd he =>
    rcases he.status_eq_or_fault with hst | ⟨cause, index, info, hst⟩
    · cases ht.symm.trans (hst.trans hs)
    · cases ht.symm.trans hst

end Sys2Proof.Machine
end

section
/-! The statements of the family `42_engine_cycle.md`. -/

namespace Sys2Proof.Machine

/-- Settles O27: a fetched word of no row raises by itself, and a decoded word that matches none of the nine rows is one of
`nor`, `bne` and `j`, which raise it too. -/
theorem wordsOutsideTheTableRaise : Obligations.WordsOutsideTheTableRaise := by
  intro s w hs hf hout
  rw [step_of_fetch hs hf]
  cases hd : decode w with
  | error e => exact ⟨_, _, _, execWord_of_error hd _, raise_status ..⟩
  | ok i =>
    have hx : executed i.mnemonic = false :=
      Bool.eq_false_iff.2 fun hx => hout i.mnemonic hx (decode_matches_row hd)
    rw [execWord_of_ok hd, exec_of_not_executed hx]
    exact ⟨_, _, _, rfl, raise_status ..⟩

/-- Settles O28, from the two outcomes of a fetch and the inversion of `step`. -/
theorem exhaustionHalts : Obligations.ExhaustionHalts := by
  intro s
  refine ⟨fun hs hpc => step_of_exhausted hs (fetch_eq_none_iff.2 hpc), fun t h ht => ?_, exists_step_of_run,
    fun hs t h => hs (step_cases h).1⟩
  exact fetch_eq_none_iff.1 (fetch_eq_none_of_step_halt h ht)

end Sys2Proof.Machine
end

section
/-! SUPPORT. The word of an R-format instruction decodes to that instruction, whatever its `shamt` (spec/30_encoding.md R57,
R66). -/

namespace Sys2Proof

/-- Opcode 0 leaves the choice of the row to the funct (R66). -/
theorem decode_packR (funct : BitVec 6) (rd rs rt : RegIdx) (shamt : BitVec 5) :
    decode (packR funct rd rs rt shamt) = decodeR (packR funct rd rs rt shamt) := by
  rw [decode, if_pos (opcodeOf_packR ..)]

/-- The decoder gives back an R-format instruction from its word: the functs of the six rows are distinct (R65, R66). -/
theorem decode_encode_of_rFormat {i : Instr} {op : ROp} (h : i.mnemonic = .r op) : decode (encode i) = .ok i := by
  cases i with
  | add rd rs rt shamt => simp [encode, decode_packR, decodeR]
  | sub rd rs rt shamt => simp [encode, decode_packR, decodeR, ROp.funct]
  | and rd rs rt shamt => simp [encode, decode_packR, decodeR, ROp.funct]
  | or rd rs rt shamt => simp [encode, decode_packR, decodeR, ROp.funct]
  | slt rd rs rt shamt => simp [encode, decode_packR, decodeR, ROp.funct]
  | nor rd rs rt shamt => simp [encode, decode_packR, decodeR, ROp.funct]
  | addi rt rs imm => cases h
  | lw rt rs imm => cases h
  | sw rt rs imm => cases h
  | beq rt rs imm => cases h
  | bne rt rs imm => cases h
  | j target => cases h

end Sys2Proof
end

section
/-! SUPPORT. The logical instructions and `slt` (spec/43_alu_rtype.md R141 to R143): the register write each answers, what its
ALU function computes, and what completing with a register write means. -/

namespace Sys2Proof.Machine

section Execute

variable (rd rs rt : RegIdx) (shamt : BitVec 5) (s : State)

theorem exec_and :
    exec (.and rd rs rt shamt) s = .next (s.writeReg rd (aluAnd (s.readReg rs) (s.readReg rt))) := rfl

theorem exec_or :
    exec (.or rd rs rt shamt) s = .next (s.writeReg rd (aluOr (s.readReg rs) (s.readReg rt))) := rfl

theorem exec_slt :
    exec (.slt rd rs rt shamt) s = .next (s.writeReg rd (aluSlt (s.readReg rs) (s.readReg rt))) := rfl

end Execute

section Alu

variable (a b : Word)

@[simp] theorem getLsbD_aluAnd (k : Nat) : (aluAnd a b).getLsbD k = (a.getLsbD k && b.getLsbD k) :=
  BitVec.getLsbD_and

@[simp] theorem getLsbD_aluOr (k : Nat) : (aluOr a b).getLsbD k = (a.getLsbD k || b.getLsbD k) :=
  BitVec.getLsbD_or

@[simp] theorem toInt_aluSlt : (aluSlt a b).toInt = if a.toInt < b.toInt then 1 else 0 := by
  rw [aluSlt, apply_ite BitVec.toInt]
  rfl

end Alu

/-- An instruction that answers a register write completes, leaves the value in its destination unless that is register 0,
where it is discarded, and changes nothing else (R126, R127). -/
theorem exists_next_of_writeReg {i : Instr} {s : State} {d : RegIdx} {v : Word}
    (h : exec i s = .next (s.writeReg d v)) :
    ∃ t, exec i s = .next t ∧ (d ≠ 0#5 → t.readReg d = v) ∧ (d = 0#5 → t = s) ∧ OnlyRegister d s t := by
  refine ⟨_, h, readReg_writeReg_self s d v, ?_, writeReg_onlyRegister s v d⟩
  rintro rfl
  exact writeReg_zero s v

end Sys2Proof.Machine
end

section
/-! The statements of the family `43_alu_rtype.md`. -/

namespace Sys2Proof.Machine

/-- Settles O12, from the R-format round trip and the register write of `and`, bit by bit. -/
theorem andWritesBitwiseAnd : Obligations.AndWritesBitwiseAnd := by
  intro s rd rs rt shamt
  obtain ⟨t, hexec, hvalue, hzero, hframe⟩ := exists_next_of_writeReg (exec_and rd rs rt shamt s)
  refine ⟨decode_encode_of_rFormat (i := .and rd rs rt shamt) rfl, t, hexec, fun hd k => ?_, hzero, hframe⟩
  rw [hvalue hd, getLsbD_aluAnd]

/-- Settles O13, from the R-format round trip and the register write of `or`, bit by bit. -/
theorem orWritesBitwiseOr : Obligations.OrWritesBitwiseOr := by
  intro s rd rs rt shamt
  obtain ⟨t, hexec, hvalue, hzero, hframe⟩ := exists_next_of_writeReg (exec_or rd rs rt shamt s)
  refine ⟨decode_encode_of_rFormat (i := .or rd rs rt shamt) rfl, t, hexec, fun hd k => ?_, hzero, hframe⟩
  rw [hvalue hd, getLsbD_aluOr]

/-- Settles O14, from the R-format round trip and the register write of `slt`, a 0 or 1 by the signed order. -/
theorem sltWritesSignedLess : Obligations.SltWritesSignedLess := by
  intro s rd rs rt shamt
  obtain ⟨t, hexec, hvalue, hzero, hframe⟩ := exists_next_of_writeReg (exec_slt rd rs rt shamt s)
  refine ⟨decode_encode_of_rFormat (i := .slt rd rs rt shamt) rfl, t, hexec, fun hd => ?_, hzero, hframe⟩
  rw [hvalue hd, toInt_aluSlt]

end Sys2Proof.Machine
end

section
/-! SUPPORT. What an instruction leaves of the load-time objects and the parameters (spec/10_state.md R20, R37): all of
them. -/

namespace Sys2Proof.Machine

theorem SameLoaded.refl (s : State) : SameLoaded s s := ⟨rfl, rfl, rfl, rfl, rfl⟩

theorem SameLoaded.trans {s t u : State} (hst : SameLoaded s t) (htu : SameLoaded t u) : SameLoaded s u := by
  obtain ⟨hparams, himem, htext, hdata, hlabel⟩ := hst
  obtain ⟨hparams', himem', htext', hdata', hlabel'⟩ := htu
  exact ⟨hparams'.trans hparams, himem'.trans himem, htext'.trans htext, hdata'.trans hdata, hlabel'.trans hlabel⟩

section Update

variable (s : State)

theorem sameLoaded_setPc (v : Word) : SameLoaded s (s.setPc v) :=
  ⟨setPc_params s v, setPc_imem s v, setPc_textSegment s v, setPc_dataSegment s v, setPc_labelAddress s v⟩

theorem sameLoaded_advancePc : SameLoaded s s.advancePc := sameLoaded_setPc s (s.pc + 1#32)

theorem sameLoaded_setStatus (st : Status) : SameLoaded s (s.setStatus st) :=
  ⟨setStatus_params s st, setStatus_imem s st, setStatus_textSegment s st, setStatus_dataSegment s st,
    setStatus_labelAddress s st⟩

theorem sameLoaded_raiseUnsupported (w : Word) : SameLoaded s (s.raiseUnsupported w) := sameLoaded_setStatus s _

theorem sameLoaded_raiseOutOfBounds (addr : Int) : SameLoaded s (s.raiseOutOfBounds addr) := sameLoaded_setStatus s _

theorem sameLoaded_writeReg (d : RegIdx) (v : Word) : SameLoaded s (s.writeReg d v) := by
  obtain ⟨-, -, -, -, hloaded⟩ := writeReg_onlyRegister s v d
  exact hloaded

theorem sameLoaded_setMemory (m : Memory) : SameLoaded s { s with dmem := m } := ⟨rfl, rfl, rfl, rfl, rfl⟩

end Update

/-- No instruction writes a load-time object or a parameter: the only memory it stores to is the data memory (R126,
R188). -/
theorem Effect.sameLoaded {i : Instr} {s t : State} (h : Effect i s t) : SameLoaded s t := by
  cases h with
  | register d v hd hx => exact sameLoaded_writeReg s d v
  | store rt rs imm hi hb => exact sameLoaded_setMemory s _
  | taken rt rs imm hi he => exact sameLoaded_setPc s _
  | notTaken rt rs imm hi he => exact .refl s
  | outOfBounds rt rs imm hi hb => exact sameLoaded_raiseOutOfBounds s _
  | unsupported hx => exact sameLoaded_raiseUnsupported s _

end Sys2Proof.Machine
end

section
/-! The statements of the family `70_reset_and_hazards.md`. -/

namespace Sys2Proof.Machine

/-- Settles O31: by the inversion of `step`, a step halts, executes an instruction after the PC advance, or raises, and none
of these writes a load-time object. -/
theorem stepKeepsLoadedObjects : Obligations.StepKeepsLoadedObjects := by
  intro s t h
  obtain ⟨-, hcase⟩ := step_cases h
  cases hcase with
  | exhausted hf => exact sameLoaded_setStatus s .halt
  | instr w i t hf hd he => exact (sameLoaded_advancePc s).trans he.sameLoaded
  | unlisted w e hf hd => exact (sameLoaded_advancePc s).trans (sameLoaded_raiseUnsupported _ w)

end Sys2Proof.Machine
end

section
/-! SUPPORT. The decoder and the word encoder are inverse to each other, and a word belongs to a row by its opcode and funct,
which are its masked bits (spec/30_encoding.md R57 to R60, R66, R71). -/

namespace Sys2Proof

variable {w : Word} {m : Mnemonic} {i : Instr}

/-! ### Round trips -/

/-- The decoder gives back every instruction from its word: the opcodes of the rows are distinct (R65, R71). -/
theorem decode_encode (i : Instr) : decode (encode i) = .ok i := by
  cases i with
  | add rd rs rt shamt => exact decode_encode_of_rFormat (op := .add) rfl
  | sub rd rs rt shamt => exact decode_encode_of_rFormat (op := .sub) rfl
  | and rd rs rt shamt => exact decode_encode_of_rFormat (op := .and) rfl
  | or rd rs rt shamt => exact decode_encode_of_rFormat (op := .or) rfl
  | slt rd rs rt shamt => exact decode_encode_of_rFormat (op := .slt) rfl
  | nor rd rs rt shamt => exact decode_encode_of_rFormat (op := .nor) rfl
  | addi rt rs imm => simp [encode, decode, IOp.opcode]
  | lw rt rs imm => simp [encode, decode, IOp.opcode]
  | sw rt rs imm => simp [encode, decode, IOp.opcode]
  | beq rt rs imm => simp [encode, decode, IOp.opcode, BOp.opcode]
  | bne rt rs imm => simp [encode, decode, IOp.opcode, BOp.opcode]
  | j target => simp [encode, decode, IOp.opcode, BOp.opcode, Mnemonic.opcode]

/-- A word that decodes is packed from the fields its instruction carries (R57 to R60). -/
theorem encode_of_decode (h : decode w = .ok i) : encode i = w := by
  unfold decode at h
  by_cases h0 : opcodeOf w = 0#6
  · rw [if_pos h0] at h
    unfold decodeR at h
    split_ifs at h with hf hf hf hf hf hf <;> cases h <;> rw [encode, ← hf, packR_fields w h0]
  · rw [if_neg h0] at h
    split_ifs at h with ho ho ho ho ho ho <;> cases h <;>
      simp only [encode, ← ho, packI_fields, packJ_fields]

/-! ### Rows -/

/-- The word has the opcode of the row, and its funct where the row has one (R66). -/
def HasCodes (w : Word) (m : Mnemonic) : Prop := opcodeOf w = m.opcode ∧ ∀ f, m.funct = some f → functOf w = f

/-- A word with the codes of a row decodes to an instruction of the row (R66). -/
theorem exists_decode_of_hasCodes (h : HasCodes w m) : ∃ i, decode w = .ok i ∧ i.mnemonic = m := by
  obtain ⟨ho, hf⟩ := h
  cases m with
  | r op =>
    have h0 : opcodeOf w = 0#6 := ho
    have hop : functOf w = op.funct := hf _ rfl
    cases op <;> exact ⟨_, by rw [decode, if_pos h0, decodeR, hop]; rfl, rfl⟩
  | i op => cases op <;> exact ⟨_, by rw [decode, ho]; rfl, rfl⟩
  | b op => cases op <;> exact ⟨_, by rw [decode, ho]; rfl, rfl⟩
  | j => exact ⟨_, by rw [decode, ho]; rfl, rfl⟩

/-- The mask of a row keeps the opcode, and the funct where the row has one; its pattern has the row's codes (R66). -/
theorem mask_pattern_codes (m : Mnemonic) :
    opcodeOf m.mask = BitVec.allOnes 6 ∧ HasCodes m.pattern m ∧
      ∀ f, m.funct = some f → functOf m.mask = BitVec.allOnes 6 := by
  cases m with
  | r op => cases op <;> exact ⟨rfl, ⟨rfl, fun f hf => Option.some.inj hf⟩, fun f hf => rfl⟩
  | i op => cases op <;> exact ⟨rfl, ⟨rfl, nofun⟩, nofun⟩
  | b op => cases op <;> exact ⟨rfl, ⟨rfl, nofun⟩, nofun⟩
  | j => exact ⟨rfl, ⟨rfl, nofun⟩, nofun⟩

theorem opcodeOf_and (a b : Word) : opcodeOf (a &&& b) = opcodeOf a &&& opcodeOf b := BitVec.extractLsb'_and

theorem functOf_and (a b : Word) : functOf (a &&& b) = functOf a &&& functOf b := BitVec.extractLsb'_and

/-- A word with the masked bits of a row has the row's codes (R66). -/
theorem hasCodes_of_and_mask (h : w &&& m.mask = m.pattern) : HasCodes w m := by
  obtain ⟨hmaskO, ⟨hpatternO, hpatternF⟩, hmaskF⟩ := mask_pattern_codes m
  refine ⟨?_, fun f hf => ?_⟩
  · rw [← hpatternO, ← h, opcodeOf_and, hmaskO, BitVec.and_allOnes]
  · rw [← hpatternF f hf, ← h, functOf_and, hmaskF f hf, BitVec.and_allOnes]

end Sys2Proof
end

section
/-! The statements on decoding and encoding of the family `other`. -/

namespace Sys2Proof.Machine

/-- Settles O1, by the round trip of each constructor. -/
theorem decodeOfEncode : Obligations.DecodeOfEncode := decode_encode

/-- Settles O2, by the branches of the decoder: the word is packed again from its own fields. -/
theorem encodeOfDecode : Obligations.EncodeOfDecode := fun _ _ => encode_of_decode

/-- Settles O3: the masked bits are the codes of the row, and these select it. -/
theorem rowSelectedByMask : Obligations.RowSelectedByMask := by
  intro w m
  constructor
  · rintro ⟨i, hd, rfl⟩
    exact decode_matches_row hd
  · exact fun h => exists_decode_of_hasCodes (hasCodes_of_and_mask h)

/-- Settles O5: six of the words are the encodings of their instructions, and the two others have the codes of no row. -/
theorem wordsOfTheSpecDecode : Obligations.WordsOfTheSpecDecode :=
  ⟨decode_encode (.add 10 8 9 0), decode_encode (.sub 9 10 11 31), decode_encode (.lw 8 9 0xFFFF),
    decode_encode (.sw 20 16 1), decode_encode (.beq 8 0 3), decode_encode (.j 5), by decide, by decide⟩

end Sys2Proof.Machine
end

section
/-! SUPPORT. What a step keeps of the invariant of the machine (spec/10_state.md R20, R34; spec/42_engine_cycle.md R133): each
part of it once, over the effects of an instruction. -/

namespace Sys2Proof.Machine

variable {s t : State} {i : Instr} {w : Word}

/-! ### The data memory -/

/-- The part of the invariant about the data memory: the canonical form, and `MEM_WORDS` cells (R34). -/
def MemoryFits (s : State) : Prop := Memory.wf s.dmem ∧ ∀ c ∈ s.dmem, c.1 < s.params.memWords

/-- A write to an address in bounds lists no cell outside the memory (R42). -/
theorem MemoryFits.write (h : MemoryFits s) {addr : Int} (hb : s.inBounds addr) (v : Word) :
    MemoryFits { s with dmem := Memory.write s.dmem addr.toNat v } := by
  obtain ⟨hwf, hcells⟩ := h
  obtain ⟨hlow, hhigh⟩ := hb
  refine ⟨Memory.wf_write hwf _ v, fun c hc => ?_⟩
  rcases Memory.mem_write hc with rfl | hc
  · exact (Int.toNat_lt hlow).2 hhigh
  · exact hcells c hc

/-- Every instruction keeps the data memory canonical and within its cells. -/
theorem Effect.memoryFits (h : Effect i s t) (hs : MemoryFits s) : MemoryFits t := by
  cases h with
  | register d v hd hx => simpa only [MemoryFits, writeReg_dmem, writeReg_params] using hs
  | store rt rs imm hi hb => exact hs.write hb _
  | taken rt rs imm hi he => exact hs
  | notTaken rt rs imm hi he => exact hs
  | outOfBounds rt rs imm hi hb => exact hs
  | unsupported hx => exact hs

/-! ### `STATUS` -/

/-- A running `STATUS` claims nothing about the rest of the state. -/
theorem statusAgrees_of_run (h : s.status = .run) : StatusAgrees s := by
  rw [StatusAgrees, h]
  trivial

/-- An exhausted fetch halts with the PC outside the program (R124, R186). -/
theorem statusAgrees_halt (hf : s.fetch = none) : StatusAgrees (s.setStatus .halt) := fetch_eq_none_iff.1 hf

/-- A raised `UnsupportedOperation` records the fetched word, which is of no row of the dispatch table (R130, R133). -/
theorem statusAgrees_raiseUnsupported (hf : s.fetch = some w) (hx : executable w = false) :
    StatusAgrees (s.advancePc.raiseUnsupported w) := by
  simp only [StatusAgrees, State.raiseUnsupported, raise_status, raise_pc, raise_imem, advancePc_fetchedIndex,
    advancePc_pc, advancePc_imem, true_and]
  exact ⟨w, hf, .inl ⟨hx, rfl⟩⟩

/-- A raised `MemoryOutOfBounds` records the address of the fetched `lw` or `sw` (R133, R166). -/
theorem statusAgrees_raiseOutOfBounds {rt rs : RegIdx} {imm : Imm16} (hf : s.fetch = some w)
    (hd : decode w = .ok (.lw rt rs imm) ∨ decode w = .ok (.sw rt rs imm))
    (hb : ¬ s.inBounds (effectiveAddress (s.readReg rs) imm)) :
    StatusAgrees (s.advancePc.raiseOutOfBounds (effectiveAddress (s.readReg rs) imm)) := by
  simp only [StatusAgrees, State.raiseOutOfBounds, raise_status, raise_pc, raise_imem, advancePc_fetchedIndex,
    advancePc_pc, advancePc_imem, true_and]
  exact ⟨w, hf, .inr ⟨hb, rt, rs, imm, hd, rfl⟩⟩

/-- Whether a decoded word is executed is a matter of its row (R66). -/
theorem executable_of_ok (hd : decode w = .ok i) : executable w = executed i.mnemonic := by
  rw [executable, hd]

theorem executable_of_error {e : DecodeError} (hd : decode w = .error e) : executable w = false := by
  rw [executable, hd]

/-- After the instruction of a running engine `STATUS` agrees with the rest of the state. -/
theorem Effect.statusAgrees (h : Effect i s.advancePc t) (hs : s.status = .run) (hf : s.fetch = some w)
    (hd : decode w = .ok i) : StatusAgrees t := by
  cases h with
  | register d v hdest hx => exact statusAgrees_of_run ((writeReg_status ..).trans hs)
  | store rt rs imm hi hb => exact statusAgrees_of_run hs
  | taken rt rs imm hi he => exact statusAgrees_of_run hs
  | notTaken rt rs imm hi he => exact statusAgrees_of_run hs
  | outOfBounds rt rs imm hi hb =>
    exact statusAgrees_raiseOutOfBounds hf (hi.imp (fun hi => hi ▸ hd) fun hi => hi ▸ hd) hb
  | unsupported hx =>
    rw [encode_of_decode hd]
    exact statusAgrees_raiseUnsupported hf ((executable_of_ok hd).trans hx)

/-! ### The whole invariant -/

/-- The invariant of a state with the same load-time objects needs only its run-time parts. -/
theorem Inv.of_sameLoaded (h : Inv s) (hl : SameLoaded s t) (hm : MemoryFits t) (hz : t.regs[0] = s.regs[0])
    (hst : StatusAgrees t) : Inv t := by
  obtain ⟨hparams, himem, htext, hdata, hlabel⟩ := hl
  exact {
    params_valid := hparams ▸ h.params_valid
    program_fits := by rw [himem, hparams]; exact h.program_fits
    one_word_per_line := by rw [himem, htext]; exact h.one_word_per_line
    labels_in_program := by rw [hlabel, himem]; exact h.labels_in_program
    text_labels_unique := hlabel ▸ h.text_labels_unique
    data_labels_unique := hdata ▸ h.data_labels_unique
    memory_wf := hm.1
    cells_in_bounds := hm.2
    slot_zero := hz.trans h.slot_zero
    status_agrees := hst }

theorem Inv.memoryFits (h : Inv s) : MemoryFits s := ⟨h.memory_wf, h.cells_in_bounds⟩

/-- Every step keeps the load-time objects (R188). -/
theorem step_sameLoaded (h : step s = .next t) : SameLoaded s t := stepKeepsLoadedObjects s t h

/-- Every step keeps the invariant. -/
theorem step_keeps_inv (h : Inv s) (hstep : step s = .next t) : Inv t := by
  have hl := step_sameLoaded hstep
  obtain ⟨hs, hc⟩ := step_cases hstep
  cases hc with
  | exhausted hf => exact h.of_sameLoaded hl h.memoryFits rfl (statusAgrees_halt hf)
  | instr w i t hf hd he =>
    exact h.of_sameLoaded hl (he.memoryFits h.memoryFits) he.slot_zero (he.statusAgrees hs hf hd)
  | unlisted w e hf hd =>
    exact h.of_sameLoaded hl h.memoryFits rfl (statusAgrees_raiseUnsupported hf (executable_of_error hd))

end Sys2Proof.Machine
end

section
/-! SUPPORT. The maps of a scan and of a resolution (spec/10_state.md R30, R31; spec/40_resolver.md R93, R96), and the invariant
at the start of a loaded program. -/

namespace Sys2Proof.Machine

variable {p : Params} {lines : List Text} {k k' : Scan}

/-- Every label of the scan is an index 0..N, and no name is declared twice in one map (R31, R93). -/
structure ScanSound (k : Scan) : Prop where
  labels_in_text : ∀ e ∈ k.labelAddress, e.2 ≤ k.textSegment.length
  text_labels_unique : (k.labelAddress.map (·.1)).Nodup
  data_labels_unique : (k.dataSegment.map (·.1)).Nodup

/-- A new name at the end keeps the names of a map unique (R93). -/
theorem nodup_names_append {α : Type} {m : List (Text × α)} {name : Text} (v : α) (h : (m.map (·.1)).Nodup)
    (hn : name ∉ m.map (·.1)) : ((m ++ [(name, v)]).map (·.1)).Nodup := by
  rw [List.map_append]
  exact h.append (List.nodup_singleton name) (List.disjoint_singleton.2 hn)

/-- A label at the current length is an index 0..N, and a longer text segment keeps the others so (R31). -/
theorem labels_in_text_append {name : Text} (h : ∀ e ∈ k.labelAddress, e.2 ≤ k.textSegment.length) :
    ∀ e ∈ k.labelAddress ++ [(name, k.textSegment.length)], e.2 ≤ k.textSegment.length := by
  simpa [or_imp, forall_and] using h

/-- Every line keeps the maps sound. -/
theorem LineCase.sound (h : LineCase k k') (hk : ScanSound k) : ScanSound k' := by
  obtain ⟨hl, ht, hd⟩ := hk
  have grow : ∀ (s : Text) (e : Text × Nat), e.2 ≤ k.textSegment.length → e.2 ≤ (k.textSegment ++ [s]).length :=
    fun s e he => he.trans (by simp)
  cases h with
  | layout c b => exact ⟨hl, ht, hd⟩
  | data name v hn => exact ⟨hl, ht, nodup_names_append v hd hn⟩
  | instruction s => exact ⟨fun e he => grow s e (hl e he), ht, hd⟩
  | label name hn => exact ⟨labels_in_text_append hl, nodup_names_append _ ht hn, hd⟩
  | labelled name s hn =>
    exact ⟨fun e he => grow s e (labels_in_text_append hl e he), nodup_names_append _ ht hn, hd⟩

/-- The maps of a resolution are sound. -/
theorem resolve_sound (h : resolve p lines = .ok k) : ScanSound k := by
  obtain ⟨hscan, -, -⟩ := resolve_eq_ok h
  exact scanLines_induct (fun _ _ hline hk => hline.sound hk) hscan ⟨nofun, List.nodup_nil, List.nodup_nil⟩

/-- The invariant holds over the encoded program of a resolution, before seeding (R38, R183). -/
theorem inv_created (hp : p.Valid) (hr : resolve p lines = .ok k) {program : List Word}
    (he : encodeProgram p.immOverflow k = .ok program) :
    Inv (State.created p k.dataSegment k.labelAddress k.textSegment program) := by
  obtain ⟨hlabels, htext, hdata⟩ := resolve_sound hr
  obtain ⟨-, -, hmax⟩ := resolve_eq_ok hr
  have hlen : program.length = k.textSegment.length := encodeFrom_length he
  exact {
    params_valid := hp
    program_fits := hlen.trans_le hmax
    one_word_per_line := hlen
    labels_in_program := fun e he => (hlabels e he).trans_eq hlen.symm
    text_labels_unique := htext
    data_labels_unique := hdata
    memory_wf := wf_created ..
    cells_in_bounds := nofun
    slot_zero := rfl
    status_agrees := statusAgrees_of_run rfl }

/-- Seeding keeps the data memory canonical and within its cells (R47). -/
theorem seed_memoryFits {ds : List (Text × Word)} {s t : State} (h : seed ds s = .ok t) (hs : MemoryFits s) :
    MemoryFits t := by
  induction ds generalizing s with
  | nil => cases h; exact hs
  | cons e rest ih =>
    obtain ⟨hb, hr⟩ := seed_cons_eq_ok.1 h
    exact ih hr (hs.write hb _)

/-- Seeding keeps the invariant of a running state (R47). -/
theorem SeededFrom.inv {s t : State} (h : SeededFrom s t) (hs : Inv s) (hrun : s.status = .run) (hm : MemoryFits t) :
    Inv t := by
  have heq : t = { s with dmem := t.dmem } := h
  rw [heq] at hm ⊢
  exact hs.of_sameLoaded (sameLoaded_setMemory s _) hm rfl (statusAgrees_of_run hrun)

/-- The invariant holds at the start of every loaded program (R183). -/
theorem load_inv (hp : p.Valid) {s : State} (h : load p lines = .ok s) : Inv s := by
  obtain ⟨k, program, hr, he, hseed⟩ := load_eq_ok h
  have hinv := inv_created hp hr he
  exact (seed_eq_ok hseed).1.inv hinv rfl (seed_memoryFits hseed hinv.memoryFits)

/-- The invariant holds at reset, with the default parameters and nothing loaded (R38). -/
theorem inv_reset : Inv State.reset where
  params_valid := by decide
  program_fits := by decide
  one_word_per_line := rfl
  labels_in_program := nofun
  text_labels_unique := List.nodup_nil
  data_labels_unique := List.nodup_nil
  memory_wf := wf_created ..
  cells_in_bounds := nofun
  slot_zero := rfl
  status_agrees := statusAgrees_of_run rfl

end Sys2Proof.Machine
end

section
/-! SUPPORT. The canonical form of the data memory is determined by what its cells read (notes/assumptions/2.md). -/

namespace Sys2Proof.Machine

variable {m n : Memory} {a : Nat} {v : Word}

/-- The canonical form of a memory with a first entry: the entry is listed, the others lie behind it. -/
theorem Memory.wf_cons {c : Nat × Word} :
    Memory.wf (c :: m) ↔ (∀ d ∈ m, c.1 < d.1) ∧ c.2 ≠ Memory.unlisted ∧ Memory.wf m := by
  simp only [Memory.wf, List.pairwise_cons, List.forall_mem_cons]
  tauto

/-- A first entry is what its cell reads. -/
theorem Memory.read_cons_self : Memory.read ((a, v) :: m) a = v := if_pos rfl

/-- A cell that is not listed first reads as in the rest. -/
theorem Memory.read_cons_ne {b : Nat} (h : a ≠ b) : Memory.read ((a, v) :: m) b = Memory.read m b := if_neg h

/-- The first entry of a canonical memory, if it has one, is its lowest cell that does not read as an unlisted one. -/
theorem Memory.exists_head_le (hm : Memory.wf m) (ha : Memory.read m a ≠ Memory.unlisted) :
    ∃ k w rest, m = (k, w) :: rest ∧ k ≤ a := by
  cases m with
  | nil => exact absurd rfl ha
  | cons c rest =>
    obtain ⟨k, w⟩ := c
    refine ⟨k, w, rest, rfl, ?_⟩
    by_contra hlt
    obtain ⟨hbehind, -, -⟩ := Memory.wf_cons.1 hm
    refine ha ((Memory.read_eq_unlisted_of_lt fun c hc => ?_))
    rcases List.mem_cons.1 hc with rfl | hc
    · exact not_le.1 hlt
    · exact (not_le.1 hlt).trans (hbehind c hc)

/-- A canonical memory reads an unlisted value at the address of an entry that it lists nowhere. -/
theorem Memory.read_head_address (hm : Memory.wf ((a, v) :: m)) : Memory.read m a = Memory.unlisted :=
  Memory.read_eq_unlisted_of_lt (Memory.wf_cons.1 hm).1

/-- Canonical memories that read the same are equal: their first entries are the same, and so are the rests. -/
theorem Memory.eq_of_read_eq (hm : Memory.wf m) (hn : Memory.wf n) (h : ∀ a, Memory.read m a = Memory.read n a) :
    m = n := by
  induction m generalizing n with
  | nil =>
    cases n with
    | nil => rfl
    | cons d n =>
      obtain ⟨-, hlisted, -⟩ := Memory.wf_cons.1 hn
      exact absurd ((h d.1).trans Memory.read_cons_self).symm hlisted
  | cons c m ih =>
    obtain ⟨k, v⟩ := c
    obtain ⟨hbehind, hlisted, hrest⟩ := Memory.wf_cons.1 hm
    have hk : Memory.read n k = v := (h k).symm.trans Memory.read_cons_self
    obtain ⟨k', v', n', rfl, hle⟩ := Memory.exists_head_le hn (hk ▸ hlisted)
    obtain ⟨hbehind', hlisted', hrest'⟩ := Memory.wf_cons.1 hn
    have hk' : Memory.read ((k, v) :: m) k' = v' := (h k').trans Memory.read_cons_self
    obtain ⟨_, _, _, hcons, hle'⟩ := Memory.exists_head_le hm (hk' ▸ hlisted')
    cases hcons
    obtain rfl : k = k' := le_antisymm hle' hle
    obtain rfl : v = v' := hk.symm.trans Memory.read_cons_self
    refine congrArg _ (ih hrest hrest' fun a => ?_)
    by_cases ha : k = a
    · subst ha
      rw [Memory.read_head_address hm, Memory.read_head_address hn]
    · simpa only [Memory.read_cons_ne ha] using h a

end Sys2Proof.Machine
end

section
/-! The statements on the invariant of the family `other`. -/

namespace Sys2Proof.Machine

/-- Settles O41: each part of the invariant is kept by the halt, by the raise of an unlisted word, and by every effect of an
instruction. -/
theorem stepKeepsInvariant : Obligations.StepKeepsInvariant := fun _ _ => step_keeps_inv

/-- Settles O39, field by field. -/
theorem invariantAtReset : Obligations.InvariantAtReset := inv_reset

/-- Settles O40: the created state has the invariant, and seeding keeps it. -/
theorem invariantAfterLoad : Obligations.InvariantAfterLoad := fun _ _ _ hp => load_inv hp

/-- Settles O42, by induction on the listed cells. -/
theorem canonicalMemoryIsUnique : Obligations.CanonicalMemoryIsUnique := fun _ _ => Memory.eq_of_read_eq

/-- Settles O45: every line of the scan keeps its maps sound, and the end of the scan checks the length. -/
theorem resolvedMapsAreSound : Obligations.ResolvedMapsAreSound := by
  intro p lines k h
  obtain ⟨hlabels, htext, hdata⟩ := resolve_sound h
  obtain ⟨-, -, hmax⟩ := resolve_eq_ok h
  exact ⟨hlabels, htext, hdata, hmax⟩

end Sys2Proof.Machine
end

section
/-! SUPPORT. The arithmetic, memory and branch instructions (spec/43_alu_rtype.md R139, R140; spec/44_immediate_memory.md;
spec/45_control.md R153): what each answers in every state, and the integers behind its result. -/

namespace Sys2Proof.Machine

/-! ### The integers -/

section Integers

variable (a b pc : Word) (imm : Imm16)

@[simp] theorem toInt_aluAdd : (aluAdd a b).toInt = Int.bmod (a.toInt + b.toInt) (2 ^ 32) := BitVec.toInt_ofInt _

@[simp] theorem toInt_aluSub : (aluSub a b).toInt = Int.bmod (a.toInt - b.toInt) (2 ^ 32) := BitVec.toInt_ofInt _

@[simp] theorem toInt_aluAddImm : (aluAddImm a imm).toInt = Int.bmod (a.toInt + imm.toInt) (2 ^ 32) := by
  rw [aluAddImm, sext16_eq_toInt]
  exact BitVec.toInt_ofInt _

/-- The effective address is the exact sum with the two's-complement offset (R40). -/
theorem effectiveAddress_eq : effectiveAddress a imm = a.toInt + imm.toInt := by
  rw [effectiveAddress, sext16_eq_toInt]

/-- The branch target is the sum with the two's-complement offset, modulo 2^32 (R153). -/
theorem toNat_branchTarget : ((branchTarget pc imm).toNat : Int) = ((pc.toNat : Int) + imm.toInt) % 2 ^ 32 := by
  rw [branchTarget, u32, sext16_eq_toInt, BitVec.toNat_ofInt, Int.toNat_of_nonneg (Int.emod_nonneg _ (by decide))]
  rfl

/-- The bit-vector sum of a base and a sign-extended offset is the exact address, wrapped once (R40). -/
theorem toInt_add_signExtend :
    (a + imm.signExtend 32).toInt = Int.bmod (effectiveAddress a imm) (2 ^ 32) := by
  rw [BitVec.toInt_add, BitVec.toInt_signExtend_of_le (by decide), effectiveAddress_eq]

end Integers

/-- An address within reach of a 32-bit base and a 16-bit offset is below any allowed `MEM_WORDS` exactly when the wrapped one
is, and then nothing was wrapped: the words that a wrap reaches lie above `2^31 - 2^15` or below 0 (R8, R40). -/
theorem bmod_inBounds {x n : Int} (hlow : -(2 ^ 31) - 2 ^ 15 ≤ x) (hhigh : x < 2 ^ 31 + 2 ^ 15) (hn : n ≤ 2 ^ 31 - 2 ^ 15) :
    ((0 ≤ x ∧ x < n) ↔ (0 ≤ Int.bmod x (2 ^ 32) ∧ Int.bmod x (2 ^ 32) < n)) ∧
      (0 ≤ x ∧ x < n → x = Int.bmod x (2 ^ 32)) := by
  rw [Int.bmod_def]
  norm_num at hlow hhigh hn ⊢
  split <;> constructor <;> omega

/-- The range of an effective address (R40). -/
theorem effectiveAddress_bounds (a : Word) (imm : Imm16) :
    -(2 ^ 31) - 2 ^ 15 ≤ effectiveAddress a imm ∧ effectiveAddress a imm < 2 ^ 31 + 2 ^ 15 := by
  have hlow := BitVec.le_toInt a
  have hhigh := BitVec.toInt_lt (x := a)
  obtain ⟨hlow', hhigh'⟩ := sext16_bounds imm
  rw [effectiveAddress]
  norm_num at hlow hhigh hlow' hhigh' ⊢
  omega

/-! ### Execute -/

section Execute

variable (rd rt rs : RegIdx) (shamt : BitVec 5) (imm : Imm16) (s : State)

theorem exec_add :
    exec (.add rd rs rt shamt) s = .next (s.writeReg rd (aluAdd (s.readReg rs) (s.readReg rt))) := rfl

theorem exec_sub :
    exec (.sub rd rs rt shamt) s = .next (s.writeReg rd (aluSub (s.readReg rs) (s.readReg rt))) := rfl

theorem exec_addi : exec (.addi rt rs imm) s = .next (s.writeReg rt (aluAddImm (s.readReg rs) imm)) := rfl

variable {s rt rs imm}

/-- `lw` in bounds writes the addressed cell to its register (R148). -/
theorem exec_lw_of_inBounds (h : s.inBounds (effectiveAddress (s.readReg rs) imm)) :
    exec (.lw rt rs imm) s =
      .next (s.writeReg rt (Memory.read s.dmem (effectiveAddress (s.readReg rs) imm).toNat)) := by
  simp only [exec, execLw, memRead_eq_some.2 ⟨h, rfl⟩]

/-- `lw` out of bounds raises, whatever its register is (R148). -/
theorem exec_lw_of_not_inBounds (h : ¬ s.inBounds (effectiveAddress (s.readReg rs) imm)) :
    exec (.lw rt rs imm) s = .next (s.raiseOutOfBounds (effectiveAddress (s.readReg rs) imm)) := by
  simp only [exec, execLw, memRead_eq_none.2 h]

/-- `sw` in bounds writes its register to the addressed cell (R149). -/
theorem exec_sw_of_inBounds (h : s.inBounds (effectiveAddress (s.readReg rs) imm)) :
    exec (.sw rt rs imm) s =
      .next { s with dmem := Memory.write s.dmem (effectiveAddress (s.readReg rs) imm).toNat (s.readReg rt) } := by
  simp only [exec, execSw, memWrite_eq_some.2 ⟨h, rfl⟩]

theorem exec_sw_of_not_inBounds (h : ¬ s.inBounds (effectiveAddress (s.readReg rs) imm)) :
    exec (.sw rt rs imm) s = .next (s.raiseOutOfBounds (effectiveAddress (s.readReg rs) imm)) := by
  simp only [exec, execSw, memWrite_eq_none.2 h]

theorem exec_beq_of_eq (h : s.readReg rs = s.readReg rt) :
    exec (.beq rt rs imm) s = .next (s.setPc (branchTarget s.pc imm)) := by
  rw [exec, execBeq, if_pos ((aluEq_iff _ _).2 h)]

theorem exec_beq_of_ne (h : s.readReg rs ≠ s.readReg rt) : exec (.beq rt rs imm) s = .next s := by
  rw [exec, execBeq, if_neg (mt (aluEq_iff _ _).1 h)]

end Execute

/-! ### Frames -/

/-- Writing to a cell what it holds changes no cell. -/
theorem Memory.read_write_own_value {m : Memory} (hm : Memory.wf m) (a b : Nat) :
    Memory.read (Memory.write m a (Memory.read m a)) b = Memory.read m b := by
  rw [Memory.read_write hm]
  split
  case isTrue h => rw [h]
  case isFalse => rfl

/-- A PC update is a frame for everything but the PC. -/
theorem setPc_onlyPc (s : State) (v : Word) : OnlyPc s (s.setPc v) :=
  ⟨fun i => readReg_setPc s i v, rfl, fun _ => rfl, sameLoaded_setPc s v⟩

theorem OnlyPc.refl (s : State) : OnlyPc s s := ⟨fun _ => rfl, rfl, fun _ => rfl, .refl s⟩

/-- A memory write is a frame for everything but its cell (R42). -/
theorem write_onlyCell {s : State} (hm : Memory.wf s.dmem) (a : Nat) (v : Word) :
    OnlyCell a s { s with dmem := Memory.write s.dmem a v } :=
  ⟨fun _ => rfl, rfl, rfl, fun b hb => (Memory.read_write hm a b v).trans (if_neg hb), sameLoaded_setMemory s _⟩

/-- Raising an error sets `STATUS` and nothing else (R168). -/
theorem raise_raisedOnly (s : State) (cause : ErrorKind) (info : Int) : RaisedOnly cause info s (s.raise cause info) := rfl

/-! ### A fetched branch -/

/-- A `beq` that a running engine fetches runs on the advanced PC (R123, R153). -/
theorem step_of_fetch_instr {s : State} {i : Instr} (hs : s.status = .run) (hf : s.fetch = some (encode i)) :
    step s = exec i s.advancePc := by
  rw [step_of_fetch hs hf, execWord_of_ok (decode_encode i)]

/-- Where a fetched `beq` that is taken leads (R153). -/
theorem step_of_taken_beq {s : State} {rt rs : RegIdx} {imm : Imm16} (hs : s.status = .run)
    (hf : s.fetch = some (encode (.beq rt rs imm))) (he : s.readReg rs = s.readReg rt) :
    step s = .next (s.setPc (branchTarget (s.pc + 1#32) imm)) := by
  rw [step_of_fetch_instr hs hf, exec_beq_of_eq (by exact he)]
  rfl

/-- Offset -1 leads back to the branch itself (R134). -/
theorem branchTarget_succ_neg_one (pc : Word) : branchTarget (pc + 1#32) 0xFFFF#16 = pc := by
  apply BitVec.eq_of_toNat_eq
  have := pc.isLt
  have htarget := toNat_branchTarget (pc + 1#32) 0xFFFF#16
  rw [show (0xFFFF#16).toInt = -1 from rfl, BitVec.toNat_add, show (1#32).toNat = 1 from rfl] at htarget
  omega

/-- Where a branch packed at index `i` for a label at index `l` leads from the advanced PC: the distance is truncated to 16 bits
(R108, R115, R154). -/
theorem toNat_branchTarget_branchOffset {pc : Word} {i l : Nat} (h : pc.toNat = i + 1) :
    ((branchTarget pc (BitVec.ofInt 16 (branchOffset i l))).toNat : Int) =
      ((i : Int) + 1 + Int.bmod ((l : Int) - (i + 1)) (2 ^ 16)) % 2 ^ 32 := by
  rw [toNat_branchTarget, BitVec.toInt_ofInt, h, branchOffset]
  rfl

/-- A distance of 16 signed bits is not truncated, and a label index is no more than 2^31: the sum is the label (R154). -/
theorem succ_add_bmod_distance {i l : Nat} (hl : l ≤ 2 ^ 31) (hlow : -(2 ^ 15) ≤ (l : Int) - (i + 1))
    (hhigh : (l : Int) - (i + 1) < 2 ^ 15) :
    ((i : Int) + 1 + Int.bmod ((l : Int) - (i + 1)) (2 ^ 16)) % 2 ^ 32 = l := by
  rw [Int.bmod_eq_of_le (by omega) (by omega)]
  omega

/-- A state that is its own next state is the end of every run from it. -/
theorem run_of_step_self {s : State} (h : step s = .next s) (n : Nat) : run n s = s := by
  induction n with
  | zero => rfl
  | succ n ih => rw [run_succ_of_next n h, ih]

end Sys2Proof.Machine
end

section
/-! The statements on single instructions of the family `other`. -/

namespace Sys2Proof.Machine

/-- Settles O10, from the register write of `add` and the integer it narrows. -/
theorem addWritesWrappedSum : Obligations.AddWritesWrappedSum := by
  intro s rd rs rt shamt
  obtain ⟨t, hexec, hvalue, hzero, hframe⟩ := exists_next_of_writeReg (exec_add rd rt rs shamt s)
  refine ⟨t, hexec, fun hd => ?_, hzero, hframe⟩
  rw [hvalue hd, toInt_aluAdd]

/-- Settles O11, from the register write of `sub` and the integer it narrows. -/
theorem subWritesWrappedDifference : Obligations.SubWritesWrappedDifference := by
  intro s rd rs rt shamt
  obtain ⟨t, hexec, hvalue, hzero, hframe⟩ := exists_next_of_writeReg (exec_sub rd rt rs shamt s)
  refine ⟨t, hexec, fun hd => ?_, hzero, hframe⟩
  rw [hvalue hd, toInt_aluSub]

/-- Settles O15, from the register write of `addi` and the integer it narrows. -/
theorem addiWritesWrappedSum : Obligations.AddiWritesWrappedSum := by
  intro s rt rs imm
  obtain ⟨t, hexec, hvalue, hzero, hframe⟩ := exists_next_of_writeReg (exec_addi rt rs imm s)
  refine ⟨t, hexec, fun hd => ?_, hzero, hframe⟩
  rw [hvalue hd, toInt_aluAddImm]

/-- Settles O16: the exact address is within 2^15 of the 32-bit range, so a wrapped one misses every allowed memory. -/
theorem wrappedAddressAgreesInBounds : Obligations.WrappedAddressAgreesInBounds := by
  intro s base imm hvalid
  obtain ⟨-, hwords, -⟩ := hvalid
  obtain ⟨hlow, hhigh⟩ := effectiveAddress_bounds base imm
  refine ⟨effectiveAddress_eq base imm, ?_⟩
  rw [toInt_add_signExtend]
  exact bmod_inBounds hlow hhigh (by norm_num at hwords ⊢; omega)

/-- Settles O17: `lw` in bounds is a register write of the addressed cell. -/
theorem lwLoadsTheCell : Obligations.LwLoadsTheCell :=
  fun _ _ _ _ hb => exists_next_of_writeReg (exec_lw_of_inBounds hb)

/-- Settles O18: `sw` in bounds is a memory write of the register. -/
theorem swStoresTheRegister : Obligations.SwStoresTheRegister := by
  intro s rt rs imm hm hb
  exact ⟨_, exec_sw_of_inBounds hb, (Memory.read_write hm _ _ _).trans (if_pos rfl), write_onlyCell hm _ _⟩

/-- Settles O19: out of bounds both instructions raise, and raising sets `STATUS` alone. -/
theorem outOfBoundsAccessRaises : Obligations.OutOfBoundsAccessRaises := by
  intro s rt rs imm hout
  have hb : ¬ s.inBounds (effectiveAddress (s.readReg rs) imm) := fun ⟨hlow, hhigh⟩ => by omega
  exact ⟨⟨_, exec_lw_of_not_inBounds hb, raise_raisedOnly ..⟩, _, exec_sw_of_not_inBounds hb, raise_raisedOnly ..⟩

/-- Settles O20: the store keeps the base register and the bounds, so the load reads the written cell. -/
theorem storeThenLoadReturnsTheValue : Obligations.StoreThenLoadReturnsTheValue := by
  intro s rt rt2 rs imm hm hb hrt2
  refine ⟨_, _, exec_sw_of_inBounds hb, exec_lw_of_inBounds hb, ?_⟩
  rw [readReg_writeReg_self _ _ _ hrt2]
  exact (Memory.read_write hm _ _ _).trans (if_pos rfl)

/-- Settles O21: the load keeps the base register, so the store writes to the cell what it holds already. -/
theorem loadThenStoreRoundTrips : Obligations.LoadThenStoreRoundTrips := by
  intro s rt rs imm hm hb hrt hne
  have hbase : ∀ v, (s.writeReg rt v).readReg rs = s.readReg rs := fun v => readReg_writeReg_ne s rs v rt hne.symm
  have hvalue : ∀ v, (s.writeReg rt v).readReg rt = v := fun v => readReg_writeReg_self s rt v hrt
  refine ⟨_, _, exec_lw_of_inBounds hb, exec_sw_of_inBounds ?_, fun a => ?_, hvalue _⟩
  · simpa only [State.inBounds, hbase, writeReg_params] using hb
  · simp only [hbase, hvalue, writeReg_dmem, Memory.read_write_own_value hm]

/-- Settles O22, by the two outcomes of the comparison. -/
theorem beqBranchesOnEqual : Obligations.BeqBranchesOnEqual := by
  intro s rt rs imm
  by_cases he : s.readReg rs = s.readReg rt
  · exact ⟨_, exec_beq_of_eq he, fun _ => toNat_branchTarget s.pc imm, fun hne => absurd he hne, setPc_onlyPc s _⟩
  · exact ⟨_, exec_beq_of_ne he, fun heq => absurd heq he, fun _ => rfl, .refl s⟩

/-- Settles O23: the three instructions are outside the dispatch table, and raising sets `STATUS` alone. -/
theorem encodedOnlyInstructionsRaise : Obligations.EncodedOnlyInstructionsRaise := by
  intro s rd rs rt shamt imm target
  exact ⟨⟨_, exec_of_not_executed rfl s, raise_raisedOnly ..⟩, ⟨_, exec_of_not_executed rfl s, raise_raisedOnly ..⟩,
    _, exec_of_not_executed rfl s, raise_raisedOnly ..⟩

/-- Settles O24: the packed offset is the distance modulo 2^16, which the taken branch adds to the advanced PC. -/
theorem branchReachesItsLabel : Obligations.BranchReachesItsLabel := by
  intro s rt rs i l hs hpc hi hl hf
  have hnext : (s.pc + 1#32).toNat = i + 1 := by
    rw [hpc, BitVec.toNat_add, BitVec.toNat_ofNat, BitVec.toNat_ofNat]
    omega
  by_cases he : s.readReg rs = s.readReg rt
  · refine ⟨_, step_of_taken_beq hs hf he, fun hne => absurd he hne, fun _ hlow hhigh => ?_, fun _ => ?_⟩
    · have := toNat_branchTarget_branchOffset (l := l) hnext
      rw [succ_add_bmod_distance hl hlow hhigh] at this
      exact_mod_cast this
    · exact toNat_branchTarget_branchOffset hnext
  · refine ⟨s.advancePc, ?_, fun _ => hnext, fun heq => absurd heq he, fun heq => absurd heq he⟩
    exact (step_of_fetch_instr hs hf).trans (exec_beq_of_ne he)

/-- Settles O25: the target of offset -1 is the branch itself, so the state is its own next state. -/
theorem selfBranchRepeats : Obligations.SelfBranchRepeats := by
  intro s rt rs hs hf he
  have hstep : step s = .next s := by
    rw [step_of_taken_beq hs hf he]
    exact congrArg (fun pc => Host.Outcome.next (s.setPc pc)) (branchTarget_succ_neg_one s.pc)
  exact ⟨hstep, run_of_step_self hstep⟩

end Sys2Proof.Machine
end

section
/-! SUPPORT. What an instruction and a step change, place by place: registers, cells, the PC and `STATUS` (spec/42_engine_cycle.md
R126, R133), and how runs are joined (R134). -/

namespace Sys2Proof.Machine

variable {s t : State} {i : Instr} {w : Word}

/-! ### One instruction -/

/-- An instruction changes no register or no cell (R126). -/
theorem Effect.sameCells_or_sameRegisters (h : Effect i s t) : SameCells s t ∨ SameRegisters s t := by
  cases h with
  | register d v hd hx => exact .inl fun a => by rw [writeReg_dmem]
  | store rt rs imm hi hb => exact .inr fun _ => rfl
  | taken rt rs imm hi he => exact .inr fun _ => rfl
  | notTaken rt rs imm hi he => exact .inr fun _ => rfl
  | outOfBounds rt rs imm hi hb => exact .inr fun _ => rfl
  | unsupported hx => exact .inr fun _ => rfl

/-- Only `sw` changes the data memory (R150). -/
theorem Effect.dmem_eq_or_store (h : Effect i s t) :
    t.dmem = s.dmem ∨ ∃ rt rs imm, i = .sw rt rs imm ∧ t.status = s.status ∧
      t.dmem = Memory.write s.dmem (effectiveAddress (s.readReg rs) imm).toNat (s.readReg rt) := by
  cases h with
  | register d v hd hx => exact .inl (writeReg_dmem ..)
  | store rt rs imm hi hb => exact .inr ⟨rt, rs, imm, hi, rfl, rfl⟩
  | taken rt rs imm hi he => exact .inl rfl
  | notTaken rt rs imm hi he => exact .inl rfl
  | outOfBounds rt rs imm hi hb => exact .inl rfl
  | unsupported hx => exact .inl rfl

/-- Only a taken `beq` changes the PC (R157). -/
theorem Effect.pc_eq_or_taken (h : Effect i s t) :
    t.pc = s.pc ∨ ∃ rt rs imm, i = .beq rt rs imm ∧ s.readReg rs = s.readReg rt := by
  cases h with
  | register d v hd hx => exact .inl (writeReg_pc ..)
  | store rt rs imm hi hb => exact .inl rfl
  | taken rt rs imm hi he => exact .inr ⟨rt, rs, imm, hi, he⟩
  | notTaken rt rs imm hi he => exact .inl rfl
  | outOfBounds rt rs imm hi hb => exact .inl rfl
  | unsupported hx => exact .inl rfl

/-- The two errors of execution (R181). -/
def ExecutionError (cause : ErrorKind) : Prop := cause = .unsupportedOperation ∨ cause = .memoryOutOfBounds

/-- An instruction of a running engine that ends in `FAULT` has raised one of the two errors and done nothing else (R133,
R168). -/
theorem Effect.eq_raise_of_fault (h : Effect i s t) (hs : s.status = .run) {cause : ErrorKind} {index : Word} {info : Int}
    (ht : t.status = .fault cause index info) : ExecutionError cause ∧ index = s.fetchedIndex ∧ t = s.raise cause info := by
  have keep : t.status ≠ s.status := by
    rw [ht, hs]
    nofun
  cases h with
  | register d v hd hx => exact absurd (writeReg_status ..) keep
  | store rt rs imm hi hb => exact absurd rfl keep
  | taken rt rs imm hi he => exact absurd rfl keep
  | notTaken rt rs imm hi he => exact absurd rfl keep
  | outOfBounds rt rs imm hi hb =>
    cases ht
    exact ⟨.inr rfl, rfl, rfl⟩
  | unsupported hx =>
    cases ht
    exact ⟨.inl rfl, rfl, rfl⟩

/-- What an instruction stores does not depend on the PC. -/
@[simp] theorem storeOf_advancePc : storeOf s.advancePc i = storeOf s i := rfl

/-- An instruction that writes a register stores nothing (R127). -/
theorem storeOf_eq_none_of_destination {d : RegIdx} (h : destination i = some d) : storeOf s i = none := by
  cases i with
  | sw rt rs imm => cases h
  | _ => rfl

/-- Every cell after an instruction of a running engine: as before where it stores nothing or raises an error, and else with the
one stored value (R126, R133). -/
theorem Effect.cells_cases (h : Effect i s t) (hs : s.status = .run) (hm : Memory.wf s.dmem) :
    (SameCells s t ∧ (storeOf s i = none ∨ t.status ≠ .run)) ∨
      ∃ a v, storeOf s i = some (a, v) ∧ t.status = .run ∧
        ∀ b, Memory.read t.dmem b = if b = a then v else Memory.read s.dmem b := by
  cases h with
  | register d v hd hx =>
    exact .inl ⟨fun a => by rw [writeReg_dmem], .inl (storeOf_eq_none_of_destination hd)⟩
  | store rt rs imm hi hb => exact .inr ⟨_, _, congrArg (storeOf s) hi, hs, fun b => Memory.read_write hm _ b _⟩
  | taken rt rs imm hi he => exact .inl ⟨fun _ => rfl, .inl (congrArg (storeOf s) hi)⟩
  | notTaken rt rs imm hi he => exact .inl ⟨fun _ => rfl, .inl (congrArg (storeOf s) hi)⟩
  | outOfBounds rt rs imm hi hb => exact .inl ⟨fun _ => rfl, .inr nofun⟩
  | unsupported hx => exact .inl ⟨fun _ => rfl, .inr nofun⟩

/-! ### One step -/

/-- A step that ends in `FAULT` has raised one of the two errors on the advanced PC and done nothing else (R133). -/
theorem step_eq_raise_of_fault (h : step s = .next t) {cause : ErrorKind} {index : Word} {info : Int}
    (ht : t.status = .fault cause index info) : ExecutionError cause ∧ index = s.pc ∧ t = s.advancePc.raise cause info := by
  obtain ⟨hs, hc⟩ := step_cases h
  cases hc with
  | exhausted hf => cases ht
  | instr w i t hf hd he => simpa only [advancePc_fetchedIndex] using he.eq_raise_of_fault hs ht
  | unlisted w e hf hd =>
    cases ht
    exact ⟨.inl rfl, advancePc_fetchedIndex s, rfl⟩

/-! ### Runs -/

/-- A stopped engine stays as it is (R124). -/
theorem run_of_not_run (h : s.status ≠ .run) (n : Nat) : run n s = s := by
  cases n with
  | zero => rfl
  | succ n => exact run_succ_of_no_next n fun ⟨t, ht⟩ => h (step_cases ht).1

/-- A run is continued from the state in which a shorter one ends (R134). -/
theorem run_add (n k : Nat) (s : State) : run (n + k) s = run k (run n s) := by
  induction n generalizing s with
  | zero => rw [Nat.zero_add, run]
  | succ n ih =>
    by_cases hs : s.status = .run
    · obtain ⟨t, ht⟩ := exists_step_of_run hs
      rw [Nat.succ_add, run_succ_of_next _ ht, run_succ_of_next _ ht, ih]
    · rw [run_of_not_run hs, run_of_not_run hs, run_of_not_run hs]

end Sys2Proof.Machine
end

section
/-! SUPPORT. The tuple of a cycle (spec/42_engine_cycle.md R136; spec/60_exceptions.md R180): when there is one, and that its
register write and memory write are all that the cycle did. -/

namespace Sys2Proof.Machine

variable {s t : State} {i : Instr} {w : Word}

/-- A tuple is that of a running engine's step on a fetched word (R180). -/
theorem observe_eq_some {o : Observation} (h : observe s = some o) :
    ∃ w t, s.fetch = some w ∧ step s = .next t ∧ o = observation s w t := by
  cases hs : s.status with
  | halt => simp [observe, hs] at h
  | fault c i info => simp [observe, hs] at h
  | run =>
    obtain ⟨t, ht⟩ := exists_step_of_run hs
    cases hf : s.fetch with
    | none => simp [observe, hs, hf] at h
    | some w => exact ⟨w, t, rfl, ht, (Option.some.inj ((observe_of_step ht hf).symm.trans h)).symm⟩

/-- There is a tuple exactly when a running engine fetches a word (R180). -/
theorem exists_observe_iff : (∃ o, observe s = some o) ↔ s.status = .run ∧ s.fetch ≠ none := by
  constructor
  · rintro ⟨o, ho⟩
    obtain ⟨w, t, hf, ht, -⟩ := observe_eq_some ho
    exact ⟨(step_cases ht).1, by rw [hf]; nofun⟩
  · rintro ⟨hs, hf⟩
    obtain ⟨t, ht⟩ := exists_step_of_run hs
    obtain ⟨w, hw⟩ := Option.ne_none_iff_exists'.1 hf
    exact ⟨_, observe_of_step ht hw⟩

/-- What every tuple holds beside the two writes (R136). -/
theorem observation_fixed (s : State) (w : Word) (t : State) :
    (observation s w t).idx = s.pc ∧ (observation s w t).fields = Fields.ofWord w ∧ (observation s w t).pcAfter = t.pc := by
  unfold observation
  split
  · split <;> exact ⟨rfl, rfl, rfl⟩
  · exact ⟨rfl, rfl, rfl⟩

/-- The writes in the tuple of a completed instruction (R136). -/
theorem observation_of_completed (hd : decode w = .ok i) (ht : t.status = .run) :
    (observation s w t).regWrite = regDelta i t ∧ (observation s w t).memWrite = storeOf s i := by
  simp only [observation, hd, ht, if_true, and_self]

/-- A cycle that raised an error wrote nothing (R133, R136). -/
theorem observation_of_raised (ht : t.status ≠ .run) :
    (observation s w t).regWrite = none ∧ (observation s w t).memWrite = none := by
  unfold observation
  split
  · rw [if_neg ht]
    exact ⟨rfl, rfl⟩
  · exact ⟨rfl, rfl⟩

/-- The registers after the cycle are those before it, but for the register write of the tuple, which is not of register 0
(R127, R136). -/
def RegWriteTells (s t : State) (o : Option (RegIdx × Word)) : Prop :=
  (o = none ∧ SameRegisters s t) ∨
    ∃ d, o = some (d, t.readReg d) ∧ d ≠ 0#5 ∧ ∀ r, r ≠ d → t.readReg r = s.readReg r

/-- The cells after the cycle are those before it, but for the memory write of the tuple (R136). -/
def MemWriteTells (s t : State) (o : Option (Nat × Word)) : Prop :=
  (o = none ∧ SameCells s t) ∨
    ∃ a v, o = some (a, v) ∧ ∀ b, Memory.read t.dmem b = if b = a then v else Memory.read s.dmem b

/-- The register write of an instruction's tuple tells its effect on the registers. -/
theorem Effect.regWriteTells (h : Effect i s.advancePc t) (hs : s.status = .run) (hd : decode w = .ok i) :
    RegWriteTells s t (observation s w t).regWrite := by
  have keep : ∀ r, (destination i = some r → r ≠ 0#5 → t.status ≠ .run) → t.readReg r = s.readReg r := fun r hr =>
    (h.readReg_eq_or_destination r).resolve_right fun ⟨hdest, h0, hst⟩ => hr hdest h0 (hst.trans hs)
  by_cases ht : t.status = .run
  · rw [(observation_of_completed hd ht).1, regDelta]
    cases hdest : destination i with
    | none => exact .inl ⟨rfl, fun r => keep r fun hr => nomatch hdest.symm.trans hr⟩
    | some d =>
      have other : ∀ r, r ≠ d → t.readReg r = s.readReg r := fun r hne =>
        keep r fun hr => absurd (Option.some.inj (hr.symm.trans hdest)) hne
      by_cases h0 : d = 0#5
      · refine .inl ⟨if_pos h0, fun r => ?_⟩
        by_cases hr : r = d
        · rw [hr, h0, readReg_zero, readReg_zero]
        · exact other r hr
      · exact .inr ⟨d, if_neg h0, h0, other⟩
  · rw [(observation_of_raised ht).1]
    exact .inl ⟨rfl, fun r => keep r fun _ _ => ht⟩

/-- The memory write of an instruction's tuple tells its effect on the cells. -/
theorem Effect.memWriteTells (h : Effect i s.advancePc t) (hs : s.status = .run) (hm : Memory.wf s.dmem)
    (hd : decode w = .ok i) : MemWriteTells s t (observation s w t).memWrite := by
  rcases h.cells_cases hs hm with ⟨hcells, hnone⟩ | ⟨a, v, hstore, ht, hcells⟩
  · refine .inl ⟨?_, hcells⟩
    by_cases ht : t.status = .run
    · rw [(observation_of_completed hd ht).2]
      exact hnone.resolve_right (not_not.2 ht)
    · exact (observation_of_raised ht).2
  · rw [(observation_of_completed hd ht).2]
    exact .inr ⟨a, v, hstore, hcells⟩

/-- The tuple of every cycle on a fetched word tells its effect on registers and cells (R136). -/
theorem observation_tells (h : step s = .next t) (hm : Memory.wf s.dmem) (hf : s.fetch = some w) :
    RegWriteTells s t (observation s w t).regWrite ∧ MemWriteTells s t (observation s w t).memWrite := by
  obtain ⟨hs, hc⟩ := step_cases h
  cases hc with
  | exhausted hf' => cases hf.symm.trans hf'
  | instr w' i t hf' hd he =>
    obtain rfl : w = w' := Option.some.inj (hf.symm.trans hf')
    exact ⟨he.regWriteTells hs hd, he.memWriteTells hs hm hd⟩
  | unlisted w' e hf' hd =>
    obtain ⟨hreg, hmem⟩ := observation_of_raised (s := s) (w := w) (t := s.advancePc.raiseUnsupported w') nofun
    exact ⟨.inl ⟨hreg, fun _ => rfl⟩, .inl ⟨hmem, fun _ => rfl⟩⟩

end Sys2Proof.Machine
end

section
/-! SUPPORT. The engine reads none of the load-time tables (spec/10_state.md R36): a change of the tables commutes with every
operation, with every instruction and with the step. -/

namespace Sys2Proof.Machine

/-- The state `s` with the text segment and the label maps of `u`. -/
def State.withTablesOf (s u : State) : State :=
  { s with textSegment := u.textSegment, dataSegment := u.dataSegment, labelAddress := u.labelAddress }

theorem sameEngineState_withTablesOf (s u : State) : SameEngineState s (s.withTablesOf u) := ⟨rfl, rfl, rfl, rfl, rfl, rfl⟩

/-- A state that agrees with another but for the tables is the other one with its tables (R36). -/
theorem SameEngineState.eq_withTablesOf {s u : State} (h : SameEngineState s u) : u = s.withTablesOf u := by
  obtain ⟨hparams, hregs, hpc, hdmem, hstatus, himem⟩ := h
  cases u
  simp_all [State.withTablesOf]

section Commute

variable {s t : State} {i : Instr} (u : State)

theorem writeReg_withTablesOf (s : State) (d : RegIdx) (v : Word) :
    (s.withTablesOf u).writeReg d v = (s.writeReg d v).withTablesOf u := by
  unfold State.writeReg
  split <;> rfl

/-- The outcome of an instruction that writes a register, with other tables. -/
theorem next_writeReg_withTablesOf {d : RegIdx} {v : Word}
    (h : (Host.Outcome.next (s.writeReg d v) : Host.Outcome State Fault Refusal) = .next t) :
    (Host.Outcome.next ((s.withTablesOf u).writeReg d v) : Host.Outcome State Fault Refusal) = .next (t.withTablesOf u) := by
  cases h
  rw [writeReg_withTablesOf]

/-- No instruction reads or writes a table. -/
theorem exec_withTablesOf (h : exec i s = .next t) : exec i (s.withTablesOf u) = .next (t.withTablesOf u) := by
  cases i with
  | add rd rs rt shamt => exact next_writeReg_withTablesOf u h
  | sub rd rs rt shamt => exact next_writeReg_withTablesOf u h
  | and rd rs rt shamt => exact next_writeReg_withTablesOf u h
  | or rd rs rt shamt => exact next_writeReg_withTablesOf u h
  | slt rd rs rt shamt => exact next_writeReg_withTablesOf u h
  | addi rt rs imm => exact next_writeReg_withTablesOf u h
  | nor rd rs rt shamt => cases h; rfl
  | bne rt rs imm => cases h; rfl
  | j target => cases h; rfl
  | lw rt rs imm =>
    by_cases hb : s.inBounds (effectiveAddress (s.readReg rs) imm)
    · rw [exec_lw_of_inBounds hb] at h
      exact (exec_lw_of_inBounds (s := s.withTablesOf u) hb).trans (next_writeReg_withTablesOf u h)
    · cases (exec_lw_of_not_inBounds hb).symm.trans h
      exact exec_lw_of_not_inBounds (s := s.withTablesOf u) hb
  | sw rt rs imm =>
    by_cases hb : s.inBounds (effectiveAddress (s.readReg rs) imm)
    · cases (exec_sw_of_inBounds hb).symm.trans h
      exact exec_sw_of_inBounds (s := s.withTablesOf u) hb
    · cases (exec_sw_of_not_inBounds hb).symm.trans h
      exact exec_sw_of_not_inBounds (s := s.withTablesOf u) hb
  | beq rt rs imm =>
    by_cases he : s.readReg rs = s.readReg rt
    · cases (exec_beq_of_eq he).symm.trans h
      exact exec_beq_of_eq (s := s.withTablesOf u) he
    · cases (exec_beq_of_ne he).symm.trans h
      exact exec_beq_of_ne (s := s.withTablesOf u) he

/-- No step reads or writes a table (R36). -/
theorem step_withTablesOf (h : step s = .next t) : step (s.withTablesOf u) = .next (t.withTablesOf u) := by
  obtain ⟨hs, -⟩ := step_cases h
  cases hf : s.fetch with
  | none =>
    cases (step_of_exhausted hs hf).symm.trans h
    exact step_of_exhausted (s := s.withTablesOf u) hs hf
  | some w =>
    rw [step_of_fetch hs hf] at h
    rw [step_of_fetch (s := s.withTablesOf u) hs hf]
    cases hd : decode w with
    | ok i =>
      rw [execWord_of_ok hd] at h ⊢
      exact exec_withTablesOf u h
    | error e =>
      cases (execWord_of_error hd _).symm.trans h
      exact execWord_of_error hd _

end Commute

end Sys2Proof.Machine
end

section
/-! SUPPORT. The step on numbers (spec/42_engine_cycle.md R131): its bit ranges are the decoder's fields, and its branches are the
meanings of the instructions. -/

namespace Sys2Proof.Machine

/-! ### Fields and registers -/

section Fields

variable (w : Word) (s : State) (r : RegIdx) (v : Int)

theorem Pseudo.bits_opcode : Pseudo.bits w 31 26 = (opcodeOf w).toNat := by
  have := w.isLt
  rw [toNat_opcodeOf, Pseudo.bits]
  omega

theorem Pseudo.bits_rs : Pseudo.bits w 25 21 = (rsOf w).toNat := (toNat_rsOf w).symm

theorem Pseudo.bits_rt : Pseudo.bits w 20 16 = (rtOf w).toNat := (toNat_rtOf w).symm

theorem Pseudo.bits_rd : Pseudo.bits w 15 11 = (rdOf w).toNat := (toNat_rdOf w).symm

theorem Pseudo.bits_funct : Pseudo.bits w 5 0 = (functOf w).toNat := by
  rw [toNat_functOf, Pseudo.bits, pow_zero, Nat.div_one]

theorem Pseudo.bits_imm : Pseudo.bits w 15 0 = (immOf w).toNat := by
  rw [toNat_immOf, Pseudo.bits, pow_zero, Nat.div_one]

@[simp] theorem Pseudo.x_toNat : Pseudo.x s r.toNat = (s.readReg r).toInt := by
  rw [Pseudo.x, BitVec.ofNat_toNat, BitVec.setWidth_eq]

@[simp] theorem Pseudo.setX_toNat : Pseudo.setX s r.toNat v = s.writeReg r (wrap32 v) := by
  rw [Pseudo.setX, BitVec.ofNat_toNat, BitVec.setWidth_eq, wrap32]

@[simp] theorem Pseudo.sext_toNat (imm : Imm16) : Pseudo.sext imm.toNat = sext16 imm := rfl

end Fields

/-! ### Execute -/

section Execute

variable (s : State)

/-- Execute on numbers with the fields that the decoder extracts from the word. -/
def Pseudo.executeWord (w : Word) : State :=
  Pseudo.execute s s.fetchedIndex w (opcodeOf w).toNat (rsOf w).toNat (rtOf w).toNat (rdOf w).toNat (functOf w).toNat
    (immOf w).toNat

/-- The bounds check of the pseudocode, which tests for the outside (R41, R42). -/
theorem not_inBounds_iff (addr : Int) : (addr < 0 ∨ (s.params.memWords : Int) ≤ addr) ↔ ¬ s.inBounds addr := by
  simp only [State.inBounds]
  omega

/-- The address that the pseudocode computes (R40). -/
theorem toInt_add_sext16 (a : Word) (imm : Imm16) : a.toInt + sext16 imm = effectiveAddress a imm := rfl

/-- A value that was narrowed is the value of a word again. -/
theorem wrap32_toInt (v : Word) : wrap32 v.toInt = v := BitVec.ofInt_toInt

theorem wrap32_slt (a b : Word) : wrap32 (if a.toInt < b.toInt then 1 else 0) = aluSlt a b := by
  rw [aluSlt, apply_ite wrap32]
  rfl

/-- Raising an error in the pseudocode is raising it in the model (R168). -/
theorem Pseudo.raise_eq (cause : ErrorKind) (info : Int) : Pseudo.raise s cause s.fetchedIndex info = s.raise cause info := rfl

/-- The pseudocode's Execute on the word of an instruction is the instruction's meaning (R126, R129). -/
theorem exec_eq_pseudo (i : Instr) : exec i s = .next (Pseudo.executeWord s (encode i)) := by
  cases i with
  | add rd rs rt shamt => simp [Pseudo.executeWord, Pseudo.execute, encode, ROp.funct, exec_add, aluAdd]
  | sub rd rs rt shamt => simp [Pseudo.executeWord, Pseudo.execute, encode, ROp.funct, exec_sub, aluSub]
  | and rd rs rt shamt => simp [Pseudo.executeWord, Pseudo.execute, encode, ROp.funct, exec_and, aluAnd]
  | or rd rs rt shamt => simp [Pseudo.executeWord, Pseudo.execute, encode, ROp.funct, exec_or, aluOr]
  | slt rd rs rt shamt => simp [Pseudo.executeWord, Pseudo.execute, encode, ROp.funct, exec_slt, wrap32_slt]
  | addi rt rs imm => simp [Pseudo.executeWord, Pseudo.execute, encode, IOp.opcode, exec_addi, aluAddImm]
  | nor rd rs rt shamt =>
    rw [exec_of_not_executed rfl, State.raiseUnsupported]
    simp [Pseudo.executeWord, Pseudo.execute, encode, ROp.funct, Pseudo.raise_eq]
  | bne rt rs imm =>
    rw [exec_of_not_executed rfl, State.raiseUnsupported]
    simp [Pseudo.executeWord, Pseudo.execute, encode, BOp.opcode, Pseudo.raise_eq]
  | j target =>
    rw [exec_of_not_executed rfl, State.raiseUnsupported]
    simp [Pseudo.executeWord, Pseudo.execute, encode, Mnemonic.opcode, Pseudo.raise_eq]
  | lw rt rs imm =>
    have hout := not_inBounds_iff s (effectiveAddress (s.readReg rs) imm)
    by_cases hb : s.inBounds (effectiveAddress (s.readReg rs) imm)
    · rw [exec_lw_of_inBounds hb]
      simp [Pseudo.executeWord, Pseudo.execute, encode, IOp.opcode, toInt_add_sext16, hout, hb, wrap32_toInt]
    · rw [exec_lw_of_not_inBounds hb, State.raiseOutOfBounds]
      simp [Pseudo.executeWord, Pseudo.execute, encode, IOp.opcode, toInt_add_sext16, hout, hb, Pseudo.raise_eq]
  | sw rt rs imm =>
    have hout := not_inBounds_iff s (effectiveAddress (s.readReg rs) imm)
    by_cases hb : s.inBounds (effectiveAddress (s.readReg rs) imm)
    · rw [exec_sw_of_inBounds hb]
      simp [Pseudo.executeWord, Pseudo.execute, encode, IOp.opcode, toInt_add_sext16, hout, hb]
    · rw [exec_sw_of_not_inBounds hb, State.raiseOutOfBounds]
      simp [Pseudo.executeWord, Pseudo.execute, encode, IOp.opcode, toInt_add_sext16, hout, hb, Pseudo.raise_eq]
  | beq rt rs imm =>
    by_cases he : s.readReg rs = s.readReg rt
    · rw [exec_beq_of_eq he, State.setPc, branchTarget, u32]
      simp [Pseudo.executeWord, Pseudo.execute, encode, BOp.opcode, he]
    · rw [exec_beq_of_ne he]
      simp [Pseudo.executeWord, Pseudo.execute, encode, BOp.opcode, BitVec.toInt_inj, he]

/-- The pseudocode's Execute on a word of no row raises `UnsupportedOperation` (R130): none of its tests holds. -/
theorem pseudo_of_decode_error {w : Word} {e : DecodeError} (hd : decode w = .error e) :
    Pseudo.executeWord s w = s.raiseUnsupported w := by
  have ne {a b : BitVec 6} (h : a ≠ b) : a.toNat ≠ b.toNat := mt BitVec.eq_of_toNat_eq h
  rcases decode_eq_error hd with ⟨h0, hr⟩ | ⟨h0, hi, hb, -⟩
  · have hopcode : (opcodeOf w).toNat = 0 := congrArg BitVec.toNat h0
    have hadd : (functOf w).toNat ≠ 32 := ne (hr .add)
    have hsub : (functOf w).toNat ≠ 34 := ne (hr .sub)
    have hand : (functOf w).toNat ≠ 36 := ne (hr .and)
    have hor : (functOf w).toNat ≠ 37 := ne (hr .or)
    have hslt : (functOf w).toNat ≠ 42 := ne (hr .slt)
    simp only [Pseudo.executeWord, Pseudo.execute, hopcode, hadd, hsub, hand, hor, hslt, if_true, if_false]
    rfl
  · have hzero : (opcodeOf w).toNat ≠ 0 := ne h0
    have haddi : (opcodeOf w).toNat ≠ 8 := ne (hi .addi)
    have hlw : (opcodeOf w).toNat ≠ 35 := ne (hi .lw)
    have hsw : (opcodeOf w).toNat ≠ 43 := ne (hi .sw)
    have hbeq : (opcodeOf w).toNat ≠ 4 := ne (hb .beq)
    simp only [Pseudo.executeWord, Pseudo.execute, hzero, haddi, hlw, hsw, hbeq, if_false]
    rfl

/-- Execute on a fetched word is the pseudocode's (R126 to R130). -/
theorem execWord_eq_pseudo (w : Word) : execWord w s = .next (Pseudo.executeWord s w) := by
  cases hd : decode w with
  | ok i => rw [execWord_of_ok hd, exec_eq_pseudo, encode_of_decode hd]
  | error e => rw [execWord_of_error hd, pseudo_of_decode_error s hd]

/-- The PC advance of Fetch, as the pseudocode writes it (R123). -/
theorem advancePc_eq_ofInt : s.advancePc = { s with pc := BitVec.ofInt 32 ((s.pc.toNat : Int) + 1) } := by
  have : s.pc + 1#32 = BitVec.ofInt 32 ((s.pc.toNat : Int) + 1) := by
    apply BitVec.eq_of_toNat_eq
    simp only [BitVec.toNat_add, BitVec.toNat_ofInt, BitVec.toNat_ofNat]
    omega
  rw [← this]
  rfl

/-- The pseudocode's step on a fetched word (R131). -/
theorem pseudo_step_of_fetch {w : Word} (hf : s.fetch = some w) : Pseudo.step s = Pseudo.executeWord s.advancePc w := by
  have hlen : ¬ s.imem.length ≤ s.pc.toNat := fun h => by simp [fetch_eq_none_iff.2 h] at hf
  have hget : s.imem.getD s.pc.toNat 0#32 = w := by
    rw [List.getD_eq_getElem?_getD, show s.imem[s.pc.toNat]? = some w from hf, Option.getD_some]
  rw [Pseudo.step, if_neg hlen, hget, Pseudo.bits_opcode, Pseudo.bits_rs, Pseudo.bits_rt, Pseudo.bits_rd,
    Pseudo.bits_funct, Pseudo.bits_imm, Pseudo.executeWord, advancePc_fetchedIndex, advancePc_eq_ofInt]

end Execute

end Sys2Proof.Machine
end

section
/-! The statements on the step of the family `other`. -/

namespace Sys2Proof.Machine

/-- Settles O26: the fetched word is executed, and it decodes to the instruction. -/
theorem stepRunsTheDecodedInstruction : Obligations.StepRunsTheDecodedInstruction := by
  intro s w i hs hf hd
  rw [step_of_fetch hs hf, execWord_of_ok hd]
  rfl

/-- Settles O29, from the two outcomes of a fetch and the inversion of `step`. -/
theorem runningEngineAlwaysSteps : Obligations.RunningEngineAlwaysSteps :=
  fun _ => ⟨fun ⟨_, h⟩ => (step_cases h).1, exists_step_of_run⟩

/-- Settles O30: exhausted or not, the two steps take the same branch, and Execute agrees on every word. -/
theorem stepMatchesPseudocode : Obligations.StepMatchesPseudocode := by
  intro s hs
  cases hf : s.fetch with
  | none =>
    rw [step_of_exhausted hs hf, Pseudo.step, if_pos (fetch_eq_none_iff.1 hf)]
    rfl
  | some w => rw [step_of_fetch hs hf, execWord_eq_pseudo, pseudo_step_of_fetch s hf]

/-- Settles O32: the second state is the first with other tables, and no step reads or writes a table. -/
theorem engineIgnoresLoadTables : Obligations.EngineIgnoresLoadTables := by
  intro s s' t hsame h
  rw [hsame.eq_withTablesOf]
  exact ⟨_, step_withTablesOf s' h, sameEngineState_withTablesOf t s'⟩

/-- Settles O33, by the places that an effect of an instruction changes. -/
theorem stepChangesAtMostOnePlace : Obligations.StepChangesAtMostOnePlace := by
  intro s t hm h
  obtain ⟨hs, hc⟩ := step_cases h
  cases hc with
  | exhausted hf => exact ⟨.inl fun _ => rfl, fun d hd => absurd rfl hd, fun a ha => absurd rfl ha⟩
  | unlisted w e hf hd => exact ⟨.inl fun _ => rfl, fun d hd => absurd rfl hd, fun a ha => absurd rfl ha⟩
  | instr w i t hf hd he =>
    refine ⟨he.sameCells_or_sameRegisters, fun d hne => ?_, fun a hne => ?_⟩
    · obtain ⟨hdest, -, -⟩ := (he.readReg_eq_or_destination d).resolve_left hne
      exact ⟨w, i, hf, hd, hdest⟩
    · rcases he.cells_cases hs hm with ⟨hcells, -⟩ | ⟨b, v, hstore, -, hcells⟩
      · exact absurd (hcells a) hne
      · have hab : a = b := by
          by_contra hab
          exact hne ((hcells a).trans (if_neg hab))
        exact ⟨w, i, hf, hd, by rw [hcells a, if_pos hab, hab, ← hstore, storeOf_advancePc]⟩

/-- Settles O34: only the effect of `sw` changes the data memory, and a decoded word is the word of its instruction. -/
theorem onlySwChangesMemory : Obligations.OnlySwChangesMemory := by
  intro s t h hne
  obtain ⟨-, hc⟩ := step_cases h
  cases hc with
  | exhausted hf => exact absurd rfl hne
  | unlisted w e hf hd => exact absurd rfl hne
  | instr w i t hf hd he =>
    obtain ⟨rt, rs, imm, rfl, -, hmem⟩ := he.dmem_eq_or_store.resolve_left hne
    exact ⟨rt, rs, imm, by rw [hf, encode_of_decode hd], hmem⟩

/-- Settles O35: only the effect of a taken `beq` moves the advanced PC. -/
theorem onlyBeqBranches : Obligations.OnlyBeqBranches := by
  intro s t h hne
  obtain ⟨-, hc⟩ := step_cases h
  cases hc with
  | exhausted hf => exact .inl ⟨hf, rfl⟩
  | unlisted w e hf hd => exact absurd rfl hne
  | instr w i t hf hd he =>
    obtain ⟨rt, rs, imm, rfl, heq⟩ := he.pc_eq_or_taken.resolve_left hne
    exact .inr ⟨rt, rs, imm, by rw [hf, encode_of_decode hd], heq⟩

/-- Settles O36: a step that ends in `FAULT` has raised on the advanced PC and done nothing else. -/
theorem faultsArePrecise : Obligations.FaultsArePrecise := by
  intro s t cause index info h ht
  obtain ⟨-, rfl, rfl⟩ := step_eq_raise_of_fault h ht
  exact ⟨rfl, by rw [State.raise, advancePc_fetchedIndex]; rfl⟩

/-- Settles O37: the longer run goes on from where the shorter one ended, and a stopped engine stays as it is. -/
theorem endedRunIsFinal : Obligations.EndedRunIsFinal := by
  intro s n k h
  rw [run_add, run_of_not_run h]

/-- Settles O38: the two writes of the tuple tell the effect of every cycle on a fetched word. -/
theorem observationTellsTheDelta : Obligations.ObservationTellsTheDelta := by
  intro s hm
  refine ⟨exists_observe_iff, fun o ho => ?_⟩
  obtain ⟨w, t, hf, ht, rfl⟩ := observe_eq_some ho
  obtain ⟨hidx, hfields, hpc⟩ := observation_fixed s w t
  obtain ⟨hreg, hmem⟩ := observation_tells ht hm hf
  refine ⟨w, t, hf, ht, hidx, hfields, hpc, ?_, ?_, ?_⟩
  · rcases hreg with ⟨hnone, hkeep⟩ | ⟨d, hsome, -, hkeep⟩
    · rw [hnone]
      exact hkeep
    · intro r
      rw [hsome]
      by_cases hr : r = d
      · simp only [hr, if_true]
      · simpa only [if_neg hr] using hkeep r hr
  · rcases hmem with ⟨hnone, hkeep⟩ | ⟨a, v, hsome, hcells⟩
    · rw [hnone]
      exact hkeep
    · rw [hsome]
      exact hcells
  · rcases hreg with ⟨hnone, -⟩ | ⟨d, hsome, h0, -⟩
    · rw [hnone]
      nofun
    · rw [hsome]
      rintro v hv
      cases hv
      exact h0 rfl

end Sys2Proof.Machine
end

section
/-! SUPPORT. What the scan does with a line of a segment (spec/40_resolver.md R85 to R93): the cut at the first colon, a label
that is accepted or not, and what stands after it. -/

namespace Sys2Proof.Machine

variable {line head body : Text} {k : Scan}

/-! ### The label before the colon -/

/-- A label name among white space is what the scan reads of it, and there is no colon before the one that ends it (R92). -/
theorem strip_spaced_label {before' name between : Text} (hb : AllSpace before') (hw : AllSpace between)
    (hn : isLabelName name = true) :
    strip (before' ++ name ++ between) = name ∧ ':' ∉ before' ++ name ++ between := by
  obtain ⟨-, hchars⟩ := label_char hn
  constructor
  · rw [strip_append_space hw, strip_space_append hb, strip_of_no_space fun c hc => (hchars c hc).1]
  · have noColon : ∀ t : Text, AllSpace t → ':' ∉ t := fun t ht hm => absurd (ht _ hm) (by decide)
    simp only [List.mem_append, not_or]
    exact ⟨⟨noColon _ hb, fun hm => (hchars _ hm).2 rfl⟩, noColon _ hw⟩

/-- The name is a label name and is not yet declared in the map (R92, R93). -/
def AcceptsLabel {α : Type} (m : List (Text × α)) (name : Text) : Prop := isLabelName name = true ∧ name ∉ m.map (·.1)

/-- A new name has no entry. -/
theorem AcceptsLabel.lookup_isSome {α : Type} {m : List (Text × α)} {name : Text} (h : AcceptsLabel m name) :
    (lookupLabel m name).isSome = false := by
  rw [Bool.eq_false_iff, ne_eq, lookupLabel_isSome]
  exact h.2

/-! ### The current segment -/

/-- The lines that the scan hands to the current segment: not blank, no directive (R82 to R84). -/
def InSegment (line : Text) : Prop := strip line ≠ [] ∧ strip line ≠ dataDirective ∧ strip line ≠ textDirective

theorem scanLine_of_text (hk : k.current = some .text) (hline : InSegment line) :
    scanLine line k = scanText line (strip line) k := by
  obtain ⟨hblank, hdata, htext⟩ := hline
  simp [scanLine, scanStripped, hblank, hdata, htext, hk]

theorem scanLine_of_data (hk : k.current = some .data) (hline : InSegment line) :
    scanLine line k = scanData line (strip line) k := by
  obtain ⟨hblank, hdata, htext⟩ := hline
  simp [scanLine, scanStripped, hblank, hdata, htext, hk]

/-- A line with a colon is no blank line and no directive. -/
theorem inSegment_of_colon (h : ':' ∉ head) : InSegment (head ++ ':' :: body) := by
  obtain ⟨-, -, -, hne⟩ := strip_colon_line body h
  exact ⟨hne _ (by decide), hne _ (by decide), hne _ (by decide)⟩

/-! ### Text lines -/

/-- A label is recorded at the current length, and what follows the colon is appended (R88 to R90). -/
theorem scanLine_text_label (hk : k.current = some .text) (h : ':' ∉ head) (ha : AcceptsLabel k.labelAddress (strip head)) :
    scanLine (head ++ ':' :: body) k = .ok (appendInstruction (strip body)
      { k with labelAddress := k.labelAddress ++ [(strip head, k.textSegment.length)] }) := by
  obtain ⟨hcolon, hlabel, hafter, -⟩ := strip_colon_line body h
  rw [scanLine_of_text hk (inSegment_of_colon h), scanText, hcolon, hlabel, hafter, strip_rdropWhile, ha.1, ha.lookup_isSome]
  rfl

/-- A text line whose name is no label name or not new raises `ParseError` (R92, R93). -/
theorem scanLine_text_bad_label (hk : k.current = some .text) (h : ':' ∉ head)
    (hbad : ¬ AcceptsLabel k.labelAddress (strip head)) :
    scanLine (head ++ ':' :: body) k = .error (.parseLine (head ++ ':' :: body)) := by
  obtain ⟨hcolon, hlabel, -, -⟩ := strip_colon_line body h
  rw [scanLine_of_text hk (inSegment_of_colon h), scanText, hcolon, hlabel]
  by_cases hname : isLabelName (strip head) = true
  · have hold : (lookupLabel k.labelAddress (strip head)).isSome = true :=
      (lookupLabel_isSome _ _).2 (by_contra fun hnew => hbad ⟨hname, hnew⟩)
    simp [hname, hold]
  · simp [hname]

/-- A text line without a colon is appended (R89). -/
theorem scanLine_text_no_colon (hk : k.current = some .text) (h : ':' ∉ line) (hline : InSegment line) :
    scanLine line k = .ok { k with textSegment := k.textSegment ++ [strip line] } := by
  rw [scanLine_of_text hk hline, scanText, strip_no_colon h]
  simp [appendInstruction, hline.1]

/-! ### Data lines -/

/-- The value that the text after the colon of a data line declares: its second token, where that is a data value (R85, R86). -/
def declaredValue (body : Text) : Option Word :=
  match dataTokens body with
  | _ :: value :: _ => dataValue value
  | _ => none

/-- A data line declares its label with its value (R85 to R87). -/
theorem scanLine_data_label (hk : k.current = some .data) (h : ':' ∉ head) (ha : AcceptsLabel k.dataSegment (strip head))
    {v : Word} (hv : declaredValue body = some v) :
    scanLine (head ++ ':' :: body) k = .ok { k with dataSegment := k.dataSegment ++ [(strip head, v)] } := by
  obtain ⟨hcolon, hlabel, hafter, -⟩ := strip_colon_line body h
  rw [scanLine_of_data hk (inSegment_of_colon h), scanData, hcolon, hlabel, hafter, dataTokens_rdropWhile, ha.1,
    ha.lookup_isSome]
  rw [declaredValue] at hv
  rcases htokens : dataTokens body with _ | ⟨directive, _ | ⟨value, rest⟩⟩ <;> rw [htokens] at hv
  · cases hv
  · cases hv
  · have hvalue : dataValue value = some v := hv
    simp [hvalue]

/-- A data line whose name is no label name or not new, or that has no value, raises `ParseError` (R86, R92, R93). -/
theorem scanLine_data_error (hk : k.current = some .data) (h : ':' ∉ head)
    (hbad : ¬ AcceptsLabel k.dataSegment (strip head) ∨ declaredValue body = none) :
    scanLine (head ++ ':' :: body) k = .error (.parseLine (head ++ ':' :: body)) := by
  obtain ⟨hcolon, hlabel, hafter, -⟩ := strip_colon_line body h
  rw [scanLine_of_data hk (inSegment_of_colon h), scanData, hcolon, hlabel, hafter, dataTokens_rdropWhile]
  by_cases ha : AcceptsLabel k.dataSegment (strip head)
  · have hv := hbad.resolve_left (not_not.2 ha)
    rw [ha.1, ha.lookup_isSome]
    rw [declaredValue] at hv
    rcases htokens : dataTokens body with _ | ⟨directive, _ | ⟨value, rest⟩⟩
    · rfl
    · rfl
    · have hvalue : dataValue value = none := by simpa only [htokens] using hv
      simp [hvalue]
  · by_cases hname : isLabelName (strip head) = true
    · have hold : (lookupLabel k.dataSegment (strip head)).isSome = true :=
        (lookupLabel_isSome _ _).2 (by_contra fun hnew => ha ⟨hname, hnew⟩)
      simp [hname, hold]
    · simp [hname]

/-- A data line without a colon raises `ParseError` (R85). -/
theorem scanLine_data_no_colon (hk : k.current = some .data) (h : ':' ∉ line) (hline : InSegment line) :
    scanLine line k = .error (.parseLine line) := by
  rw [scanLine_of_data hk hline, scanData, strip_no_colon h]
  rfl

/-! ### The tokens of a data line -/

variable {gap directive gap' value rest : Text}

/-- White space separates tokens (R85). -/
theorem AllSpace.separators (h : AllSpace gap) : ∀ c ∈ gap, isSeparator c = true := fun c hc => by
  simp [isSeparator, h c hc]

/-- A directive and a value among separators are the first two tokens, so the value is the declared one (R85, R87). -/
theorem declaredValue_of_tokens (hgap : AllSpace gap) (hdirective : IsToken directive) (hne : gap' ≠ [])
    (hgap' : ∀ c ∈ gap', isSeparator c = true) (hvalue : IsToken value) (hrest : ∀ c ∈ rest.head?, isSeparator c = true) :
    declaredValue (gap ++ directive ++ gap' ++ value ++ rest) = dataValue value := by
  have hfollow : ∀ c ∈ (gap' ++ (value ++ rest)).head?, isSeparator c = true := by
    obtain ⟨d, gap'', rfl⟩ := List.exists_cons_of_ne_nil hne
    simpa using hgap' d (by simp)
  have htokens : dataTokens (gap ++ directive ++ gap' ++ value ++ rest) =
      directive :: value :: tokensFrom isSeparator [] rest := by
    calc dataTokens (gap ++ directive ++ gap' ++ value ++ rest)
      _ = tokensFrom isSeparator [] (gap ++ (directive ++ (gap' ++ (value ++ rest)))) := by
        simp only [List.append_assoc]
        rfl
      _ = tokensFrom isSeparator [] (directive ++ (gap' ++ (value ++ rest))) := tokensFrom_separators _ hgap.separators
      _ = directive :: tokensFrom isSeparator [] (gap' ++ (value ++ rest)) :=
        tokensFrom_token hdirective.1 hdirective.2 hfollow
      _ = directive :: value :: tokensFrom isSeparator [] rest := by
        rw [tokensFrom_separators _ hgap', tokensFrom_token hvalue.1 hvalue.2 hrest]
  rw [declaredValue, htokens]

/-- A text with at most one token declares no value (R86). -/
theorem declaredValue_of_one_token (hgap : AllSpace gap) (hdirective : ∀ c ∈ directive, isSeparator c = false)
    (hgap' : ∀ c ∈ gap', isSeparator c = true) : declaredValue (gap ++ directive ++ gap') = none := by
  have hend : tokensFrom isSeparator [] gap' = [] := by
    rw [← List.append_nil gap', tokensFrom_separators [] hgap']
    rfl
  have htokens : dataTokens (gap ++ directive ++ gap') = tokensFrom isSeparator [] (directive ++ gap') := by
    rw [List.append_assoc]
    exact tokensFrom_separators _ hgap.separators
  rw [declaredValue, htokens]
  by_cases hne : directive = []
  · rw [hne, List.nil_append, hend]
  · rw [tokensFrom_token hne hdirective fun c hc => hgap' c (List.mem_of_mem_head? hc), hend]

/-- The data values are the decimal integers of 32 signed bits (R86). -/
theorem dataValue_of_range {v : Int} (h : decimalInt value = some v) (hv : -(2 ^ 31) ≤ v ∧ v ≤ 2 ^ 31 - 1) :
    dataValue value = some (BitVec.ofInt 32 v) := by
  simp only [dataValue, h, if_pos hv, wrap32]

theorem dataValue_eq_none (h : ∀ v : Int, decimalInt value = some v → ¬ (-(2 ^ 31) ≤ v ∧ v ≤ 2 ^ 31 - 1)) :
    dataValue value = none := by
  cases hd : decimalInt value with
  | none => simp only [dataValue, hd]
  | some v => simp only [dataValue, hd, if_neg (h v hd)]

end Sys2Proof.Machine
end

section
/-! The statements on the resolver of the family `other`. -/

namespace Sys2Proof.Machine

/-- Settles O44, by the equations of a labelled text line, of one whose label is not accepted, and of one without a colon. -/
theorem labelTakesTheCurrentLength : Obligations.LabelTakesTheCurrentLength := by
  intro k hk
  refine ⟨fun before' name between body hb hw hn hnew => ?_, fun head body h hbad => ?_, fun line h hblank hdata htext => ?_⟩
  · obtain ⟨hstrip, hcolon⟩ := strip_spaced_label hb hw hn
    have hscan := scanLine_text_label (body := body) hk hcolon (by rw [hstrip]; exact ⟨hn, hnew⟩)
    rw [hscan, hstrip]
    exact ⟨fun hbody => by simp [appendInstruction, hbody], fun hbody => by simp [appendInstruction, hbody]⟩
  · refine scanLine_text_bad_label hk h fun ⟨hname, hnew⟩ => ?_
    rcases hbad with hbad | hold
    · exact absurd (hbad.symm.trans hname) Bool.false_ne_true
    · exact hnew hold
  · exact scanLine_text_no_colon hk h ⟨hblank, hdata, htext⟩

/-- Settles O59, by the equations of a data line and the first two tokens of what follows its colon. -/
theorem dataLineDeclaresItsFirstValue : Obligations.DataLineDeclaresItsFirstValue := by
  intro k hk
  refine ⟨fun before' name between gap directive gap' value rest hb hw hgap hn hnew hdir hne hgap' hvalue hrest => ?_,
    fun head gap directive gap' h hgap hdir hgap' => ?_, fun head body h hbad => ?_,
    fun line h hblank hdata htext => ?_⟩
  · obtain ⟨hstrip, hcolon⟩ := strip_spaced_label hb hw hn
    have hdeclared := declaredValue_of_tokens hgap hdir hne hgap' hvalue hrest
    refine ⟨fun v hv hlow hhigh => ?_, fun hv => ?_⟩
    · have hword := hdeclared.trans (dataValue_of_range hv ⟨hlow, hhigh⟩)
      rw [scanLine_data_label hk hcolon (by rw [hstrip]; exact ⟨hn, hnew⟩) hword, hstrip]
    · exact scanLine_data_error hk hcolon (.inr (hdeclared.trans (dataValue_eq_none hv)))
  · exact scanLine_data_error hk h (.inr (declaredValue_of_one_token hgap hdir hgap'))
  · refine scanLine_data_error hk h (.inl fun ⟨hname, hnew⟩ => ?_)
    rcases hbad with hbad | hold
    · exact absurd (hbad.symm.trans hname) Bool.false_ne_true
    · exact hnew hold
  · exact scanLine_data_no_colon hk h ⟨hblank, hdata, htext⟩

end Sys2Proof.Machine
end

section
/-! SUPPORT. The names of the assembler text (spec/41_encoder.md R102, R103): the mnemonics and the register tokens. -/

namespace Sys2Proof.Machine

/-! ### Mnemonics -/

/-- The twelve names are those of the table's rows (R65). -/
theorem mnemonicTexts_eq : mnemonicTexts = Mnemonic.all.map mnemonicName := by decide

/-- A name is found in the table exactly when it is one of the twelve (R102). -/
theorem findMnemonic_eq_none_iff {t : Text} : findMnemonic t = none ↔ t ∉ mnemonicTexts := by
  rw [mnemonicTexts_eq, findMnemonic, List.find?_eq_none]
  simp

/-! ### Registers -/

/-- The 32 register names are distinct, and none is a decimal numeral (R24). -/
theorem registerNames_distinct :
    registerNames.length = 32 ∧ registerNames.Nodup ∧ ∀ name ∈ registerNames, decimalNat name = none := by decide

/-- A name stands at position `i` of the register names exactly when it is the name of index `i` (R24). -/
theorem positionIn_registerNames {t : Text} {i : Nat} : positionIn registerNames t = some i ↔ registerNames[i]? = some t := by
  obtain ⟨-, hnodup, -⟩ := registerNames_distinct
  rw [positionIn, List.findIdx?_eq_some_iff_getElem]
  constructor
  · rintro ⟨hi, heq, -⟩
    rw [List.getElem?_eq_getElem hi, eq_of_beq heq]
  · intro h
    obtain ⟨hi, rfl⟩ := List.getElem?_eq_some_iff.1 h
    refine ⟨hi, beq_self_eq_true _, fun j hj heq => ?_⟩
    exact hj.ne (hnodup.getElem_inj_iff.1 (eq_of_beq heq))

/-- The register of an index below 32. -/
theorem some_ofNat_eq_iff {n : Nat} (hn : n < 32) (r : RegIdx) : some (BitVec.ofNat 5 n) = some r ↔ n = r.toNat := by
  rw [Option.some.injEq, ← BitVec.toNat_inj, BitVec.toNat_ofNat, Nat.mod_eq_of_lt hn]

/-- The register that a token without its `$` names: by name, or by numeral (R103). -/
theorem parseRegister_dollar {t : Text} {r : RegIdx} :
    parseRegister ('$' :: t) = some r ↔ registerNames[r.toNat]? = some t ∨ decimalNat t = some r.toNat := by
  obtain ⟨hlen, -, hnumeral⟩ := registerNames_distinct
  rw [parseRegister, if_pos rfl]
  cases hpos : positionIn registerNames t with
  | some i =>
    have hget := positionIn_registerNames.1 hpos
    obtain ⟨hi, -⟩ := List.getElem?_eq_some_iff.1 hget
    have hdec : decimalNat t = none := hnumeral t (List.mem_of_getElem? hget)
    rw [some_ofNat_eq_iff (hlen ▸ hi), ← positionIn_registerNames, hpos, hdec, Option.some.injEq]
    simp
  | none =>
    rw [← positionIn_registerNames, hpos]
    cases hdec : decimalNat t with
    | none => simp
    | some n =>
      have hr := r.isLt
      by_cases hn : n ≤ 31
      · simp [if_pos hn, some_ofNat_eq_iff (Nat.lt_succ_of_le hn)]
      · have hne : n ≠ r.toNat := by omega
        simp [if_neg hn, hne]

end Sys2Proof.Machine
end

section
/-! SUPPORT. What the operand stage answers on each operand form (spec/41_encoder.md R105 to R113), and which errors it raises
(R117). -/

namespace Sys2Proof.Machine

variable {ds : List (Text × Word)} {la : List (Text × Nat)} {line tok : Text}

/-! ### Operands that are accepted -/

theorem regOperand_of_some {r : RegIdx} (h : parseRegister tok = some r) : regOperand tok = .ok r := by
  rw [regOperand, h]

theorem regOperand_of_none (h : parseRegister tok = none) : regOperand tok = .error (.invalidRegister tok) := by
  rw [regOperand, h]

theorem intOperand_of_some {v : Int} (h : decimalInt tok = some v) : intOperand tok = .ok v := by
  rw [intOperand, h]

theorem labelOperand_of_some {n : Nat} (h : lookupLabel la tok = some n) : labelOperand la tok = .ok n := by
  rw [labelOperand, h]

section Forms

variable {op0 op1 op2 : Text} {r0 r1 r2 : RegIdx}

/-- `rd, rs, rt` (R105). -/
theorem rOperands_of_registers (op : ROp) (h0 : parseRegister op0 = some r0) (h1 : parseRegister op1 = some r1)
    (h2 : parseRegister op2 = some r2) : rOperands op [op0, op1, op2] = .ok (.r op r0 r1 r2) := by
  rw [rOperands, regOperand_of_some h0, regOperand_of_some h1, regOperand_of_some h2]
  rfl

/-- `rt, rs, label` (R107). -/
theorem bOperands_of_label (op : BOp) {target : Nat} (h0 : parseRegister op0 = some r0) (h1 : parseRegister op1 = some r1)
    (h2 : lookupLabel la op2 = some target) : bOperands la op [op0, op1, op2] = .ok (.b op r0 r1 target) := by
  rw [bOperands, regOperand_of_some h0, regOperand_of_some h1, labelOperand_of_some h2]
  rfl

/-- `label` (R110). -/
theorem jOperands_of_label {target : Nat} (h : lookupLabel la op0 = some target) :
    jOperands la [op0] = .ok (.j target) := by
  rw [jOperands, labelOperand_of_some h]
  rfl

/-- Form (a): `rt, rs, imm` (R113). -/
theorem iOperands_of_immediate (op : IOp) {v : Int} (h0 : parseRegister op0 = some r0) (h1 : parseRegister op1 = some r1)
    (h2 : decimalInt op2 = some v) : iOperands ds op [op0, op1, op2] = .ok (.i op r0 r1 v) := by
  rw [iOperands, immediateForm, regOperand_of_some h0, regOperand_of_some h1, intOperand_of_some h2]
  rfl

/-- The two-operand forms: the register operand and what the second operand stands for (R112). -/
theorem iOperands_of_pair (op : IOp) (h0 : parseRegister op0 = some r0) :
    iOperands ds op [op0, op1] = (pairForm ds op1).map fun k => .i op r0 k.base k.value := by
  rw [iOperands, regOperand_of_some h0]
  cases pairForm ds op1 <;> rfl

/-- Form (c1): a data label over register 0 (R113). -/
theorem pairForm_of_dataLabel {v : Word} (hp : hasChar '(' op1 = false) (hl : lookupLabel ds op1 = some v) :
    pairForm ds op1 = .ok (.dataLabelReference v.toInt) := by
  rw [pairForm, hp, singleTokenForm, hl]
  rfl

/-- Form (c2): a base register with immediate 0, and the error of a token that names none (R113). -/
theorem pairForm_of_token (hp : hasChar '(' op1 = false) (hl : lookupLabel ds op1 = none) :
    pairForm ds op1 = (regOperand op1).map (.baseOffset 0) := by
  rw [pairForm, hp, singleTokenForm, hl]
  cases regOperand op1 <;> rfl

/-- Form (b): `off(base)`, with white space after the closing parenthesis (R113). -/
theorem pairForm_of_baseOffset {off base tail : Text} {v : Int} (hoff : '(' ∉ off) (hbase : ')' ∉ base)
    (htail : AllSpace tail) (hv : decimalInt (strip off) = some v) (hr : parseRegister (strip base) = some r1) :
    pairForm ds (off ++ '(' :: (base ++ ')' :: tail)) = .ok (.baseOffset v r1) := by
  obtain ⟨hbefore, hafter⟩ := before_after (base ++ ')' :: tail) hoff
  obtain ⟨hbefore', hafter'⟩ := before_after tail hbase
  have hopen : hasChar '(' (off ++ '(' :: (base ++ ')' :: tail)) = true := by simp [hasChar]
  have hclose : hasChar ')' (base ++ ')' :: tail) = true := by simp [hasChar]
  have hempty : strip tail = [] := by
    have := strip_append_space (a := []) htail
    rwa [List.nil_append] at this
  rw [pairForm, hopen, if_pos rfl, baseOffsetForm, hafter, hclose, hafter', hempty, hbefore, hbefore', intOperand_of_some hv,
    regOperand_of_some hr]
  rfl

end Forms

/-! ### The errors of the operands -/

/-- Nothing but a missing mnemonic raises `UnsupportedInstruction`: the outcome is no such error (R102, R117). -/
def MnemonicAccepted {α : Type} (x : Except EncodeError α) : Prop := ∀ name, x ≠ .error (.unsupportedInstruction name)

namespace MnemonicAccepted

theorem ok {α : Type} (a : α) : MnemonicAccepted (.ok a) := nofun

theorem parseError {α : Type} : MnemonicAccepted (.error .parseError : Except EncodeError α) := nofun

/-- Stages in order raise no such error if none of them does. -/
theorem bind {α β : Type} {x : Except EncodeError α} {f : α → Except EncodeError β} (hx : MnemonicAccepted x)
    (hf : ∀ a, MnemonicAccepted (f a)) : MnemonicAccepted (x >>= f) := by
  cases x with
  | ok a => exact hf a
  | error e => exact fun name h => hx name (congrArg Except.error (Except.error.inj h))

theorem regOperand (tok : Text) : MnemonicAccepted (regOperand tok) := by
  unfold Machine.regOperand
  split <;> nofun

theorem intOperand (tok : Text) : MnemonicAccepted (intOperand tok) := by
  unfold Machine.intOperand
  split <;> nofun

theorem labelOperand (la : List (Text × Nat)) (tok : Text) : MnemonicAccepted (labelOperand la tok) := by
  unfold Machine.labelOperand
  split <;> nofun

theorem pairForm (ds : List (Text × Word)) (tok : Text) : MnemonicAccepted (pairForm ds tok) := by
  unfold Machine.pairForm
  split
  · unfold baseOffsetForm
    split
    · exact parseError
    split
    · exact parseError
    exact .bind (.intOperand _) fun _ => .bind (.regOperand _) fun _ => .ok _
  · unfold singleTokenForm
    split
    · exact .ok _
    · exact .bind (.regOperand _) fun _ => .ok _

theorem rOperands (op : ROp) (ops : List Text) : MnemonicAccepted (rOperands op ops) := by
  unfold Machine.rOperands
  split
  · exact .bind (.regOperand _) fun _ => .bind (.regOperand _) fun _ => .bind (.regOperand _) fun _ => .ok _
  · exact parseError

theorem iOperands (ds : List (Text × Word)) (op : IOp) (ops : List Text) : MnemonicAccepted (iOperands ds op ops) := by
  unfold Machine.iOperands
  split
  · refine .bind (.regOperand _) fun _ => .bind ?_ fun _ => .ok _
    exact .bind (.regOperand _) fun _ => .bind (.intOperand _) fun _ => .ok _
  · exact .bind (.regOperand _) fun _ => .bind (.pairForm ds _) fun _ => .ok _
  · exact parseError

theorem bOperands (la : List (Text × Nat)) (op : BOp) (ops : List Text) : MnemonicAccepted (bOperands la op ops) := by
  unfold Machine.bOperands
  split
  · exact .bind (.regOperand _) fun _ => .bind (.regOperand _) fun _ => .bind (.labelOperand la _) fun _ => .ok _
  · exact parseError

theorem jOperands (la : List (Text × Nat)) (ops : List Text) : MnemonicAccepted (jOperands la ops) := by
  unfold Machine.jOperands
  split
  · exact .bind (.labelOperand la _) fun _ => .ok _
  · exact parseError

theorem checkRange (o : ImmOverflow) (index : Nat) (a : AsmInstr) : MnemonicAccepted (checkRange o index a) := by
  unfold Machine.checkRange
  split
  · exact .ok a
  · split <;> nofun

end MnemonicAccepted

/-! ### The operand stage -/

/-- The mnemonic of an abstract instruction (R100). -/
def AsmInstr.mnemonic : AsmInstr → Mnemonic
  | .r op _ _ _ => .r op
  | .i op _ _ _ => .i op
  | .b op _ _ _ => .b op
  | .j _ => .j

section Stage

variable {a : AsmInstr} {m : Mnemonic}

/-- The operand stage after the mnemonic lookup: the operands of a line of that mnemonic (R117). -/
def operandsOf (ds : List (Text × Word)) (la : List (Text × Nat)) (ops : List Text) : Mnemonic → Except EncodeError AsmInstr
  | .r op => rOperands op ops
  | .i op => iOperands ds op ops
  | .b op => bOperands la op ops
  | .j => jOperands la ops

theorem operandStage_of_some (h : findMnemonic (lineMnemonic line) = some m) :
    operandStage ds la line = operandsOf ds la (lineOperands line) m := by
  rw [operandStage, h]
  cases m <;> rfl

theorem operandStage_of_none (h : findMnemonic (lineMnemonic line) = none) :
    operandStage ds la line = .error (.unsupportedInstruction (lineMnemonic line)) := by
  rw [operandStage, h]

theorem MnemonicAccepted.operandsOf (ds : List (Text × Word)) (la : List (Text × Nat)) (ops : List Text) (m : Mnemonic) :
    MnemonicAccepted (operandsOf ds la ops m) := by
  cases m with
  | r op => exact .rOperands op ops
  | i op => exact .iOperands ds op ops
  | b op => exact .bOperands la op ops
  | j => exact .jOperands la ops

/-- What a stage yields, if it completes, is an instruction of the mnemonic. -/
def YieldsMnemonic (m : Mnemonic) (x : Except EncodeError AsmInstr) : Prop := ∀ a, x = .ok a → a.mnemonic = m

theorem YieldsMnemonic.ok (a : AsmInstr) : YieldsMnemonic a.mnemonic (.ok a) := fun _ h => by cases h; rfl

theorem YieldsMnemonic.error (e : EncodeError) : YieldsMnemonic m (.error e) := nofun

/-- The last of the stages in order decides what they yield. -/
theorem YieldsMnemonic.bind {α : Type} {x : Except EncodeError α} {f : α → Except EncodeError AsmInstr}
    (hf : ∀ a, YieldsMnemonic m (f a)) : YieldsMnemonic m (x >>= f) := by
  cases x with
  | ok a => exact hf a
  | error e => exact .error e

/-- The operands give an abstract instruction of the line's mnemonic (R100). -/
theorem YieldsMnemonic.operandsOf (ds : List (Text × Word)) (la : List (Text × Nat)) (ops : List Text) (m : Mnemonic) :
    YieldsMnemonic m (operandsOf ds la ops m) := by
  cases m with
  | r op =>
    simp only [Machine.operandsOf, rOperands]
    split
    · exact .bind fun _ => .bind fun _ => .bind fun _ => .ok _
    · exact .error _
  | i op =>
    simp only [Machine.operandsOf, iOperands]
    split
    · exact .bind fun _ => .bind fun _ => .ok _
    · exact .bind fun _ => .bind fun _ => .ok _
    · exact .error _
  | b op =>
    simp only [Machine.operandsOf, bOperands]
    split
    · exact .bind fun _ => .bind fun _ => .bind fun _ => .ok _
    · exact .error _
  | j =>
    simp only [Machine.operandsOf, jOperands]
    split
    · exact .bind fun _ => .ok _
    · exact .error _

end Stage

end Sys2Proof.Machine
end

section
/-! SUPPORT. The encoder on one line (spec/41_encoder.md R98, R115, R117): its outcomes, its word as a number, and how a line is
cut into mnemonic and operands (R101). -/

namespace Sys2Proof.Machine

variable {o : ImmOverflow} {ds : List (Text × Word)} {la : List (Text × Nat)} {line : Text} {index : Nat} {a : AsmInstr}

/-! ### The outcomes of a line -/

/-- The range check passes an instruction that fits, and any other one under `truncate` (R115, U1). -/
theorem checkRange_eq_ok (h : o = .truncate ∨ a.fits index = true) : checkRange o index a = .ok a := by
  cases o with
  | truncate => rfl
  | refuse => exact if_pos (h.resolve_left nofun)

/-- Under `refuse` an instruction that does not fit raises `ParseError` (U1). -/
theorem checkRange_refuse (h : a.fits index = false) : checkRange .refuse index a = .error .parseError := by
  rw [checkRange, h]
  rfl

/-- The range check passes nothing but the instruction itself. -/
theorem eq_of_checkRange {b : AsmInstr} (h : checkRange o index a = .ok b) : b = a := by
  cases o with
  | truncate => cases h; rfl
  | refuse =>
    rw [checkRange] at h
    split at h <;> cases h
    rfl

/-- A line after its operand stage: the range check and the word (R98). -/
theorem encodeLine_of_operandStage (h : operandStage ds la line = .ok a) :
    encodeLine o line ds la index = (checkRange o index a).map fun b => encode (b.toInstr index) := by
  rw [encodeLine, h]
  cases hc : checkRange o index a <;> simp [bind, Except.bind, hc, Except.map, pure, Except.pure]

/-- A line is encoded in three stages: the operands, the range check and the word (R98, R117). -/
theorem encodeLine_eq_bind : encodeLine o line ds la index =
    operandStage ds la line >>= fun a => (checkRange o index a).map fun b => encode (b.toInstr index) := by
  cases h : operandStage ds la line with
  | error e =>
    rw [encodeLine, h]
    rfl
  | ok a => exact encodeLine_of_operandStage h

/-- A line that encodes has the word of its abstract instruction (R99). -/
theorem encodeLine_eq_ok {w : Word} (h : encodeLine o line ds la index = .ok w) :
    ∃ a, operandStage ds la line = .ok a ∧ w = encode (a.toInstr index) := by
  cases hs : operandStage ds la line with
  | error e =>
    rw [encodeLine, hs] at h
    cases h
  | ok a =>
    refine ⟨a, rfl, ?_⟩
    rw [encodeLine_of_operandStage hs] at h
    cases hc : checkRange o index a with
    | error e =>
      rw [hc] at h
      cases h
    | ok b =>
      rw [hc, eq_of_checkRange hc] at h
      cases h
      rfl

/-- The packed instruction is well-formed and of the mnemonic of the abstract one (R64, R106). -/
theorem toInstr_wf (a : AsmInstr) (index : Nat) : (a.toInstr index).wf = true ∧ (a.toInstr index).mnemonic = a.mnemonic := by
  cases a with
  | r op rd rs rt => cases op <;> exact ⟨rfl, rfl⟩
  | i op rt rs v => cases op <;> exact ⟨rfl, rfl⟩
  | b op rt rs target => cases op <;> exact ⟨rfl, rfl⟩
  | j target => exact ⟨rfl, rfl⟩

/-- The abstract instruction of a line is of the line's mnemonic (R100). -/
theorem operandStage_mnemonic (h : operandStage ds la line = .ok a) : findMnemonic (lineMnemonic line) = some a.mnemonic := by
  cases hm : findMnemonic (lineMnemonic line) with
  | none =>
    rw [operandStage_of_none hm] at h
    cases h
  | some m =>
    rw [operandStage_of_some hm] at h
    rw [YieldsMnemonic.operandsOf ds la _ m a h]

/-- A line whose mnemonic is in the table raises no `UnsupportedInstruction` (R102, R117). -/
theorem MnemonicAccepted.encodeLine {m : Mnemonic} (h : findMnemonic (lineMnemonic line) = some m) :
    MnemonicAccepted (encodeLine o line ds la index) := by
  rw [Machine.encodeLine, operandStage_of_some h]
  exact .bind (.operandsOf ds la _ m) fun a => .bind (.checkRange o index a) fun _ => .ok _

/-! ### Branches at two indices -/

/-- A label operand under two maps of the same distances (R95): the same error, or targets at the same distance. -/
theorem labelOperand_of_sameDistances {la' : List (Text × Nat)} {i i' : Nat} (h : SameDistances la la' i i') (tok : Text) :
    (∃ e, labelOperand la tok = .error e ∧ labelOperand la' tok = .error e) ∨
      ∃ n n', labelOperand la tok = .ok n ∧ labelOperand la' tok = .ok n' ∧ branchOffset i n = branchOffset i' n' := by
  have hd := h tok
  cases hn : lookupLabel la tok <;> cases hn' : lookupLabel la' tok <;> rw [hn, hn'] at hd
  case none.none => exact .inl ⟨.unresolvedLabel tok, by rw [labelOperand, hn], by rw [labelOperand, hn']⟩
  case some.some n n' => exact .inr ⟨n, n', labelOperand_of_some hn, labelOperand_of_some hn', Option.some.inj hd⟩
  all_goals cases hd

/-- A branch with operands that are accepted depends on its label through the distance only (R95, R108, U1). -/
theorem packed_branch_of_distance {op : BOp} {rt rs : RegIdx} {i i' n n' : Nat} (h : branchOffset i n = branchOffset i' n') :
    ((checkRange o i (.b op rt rs n)).map fun b => encode (b.toInstr i)) =
      (checkRange o i' (.b op rt rs n')).map fun b => encode (b.toInstr i') := by
  have hfits : (AsmInstr.b op rt rs n).fits i = (AsmInstr.b op rt rs n').fits i' := by simp only [AsmInstr.fits, h]
  have hinstr : (AsmInstr.b op rt rs n).toInstr i = (AsmInstr.b op rt rs n').toInstr i' := by
    simp only [AsmInstr.toInstr, h]
  by_cases hok : o = .truncate ∨ (AsmInstr.b op rt rs n).fits i = true
  · rw [checkRange_eq_ok hok, checkRange_eq_ok (hfits ▸ hok), Except.map, Except.map, hinstr]
  · obtain ⟨ho, hfalse⟩ := not_or.1 hok
    obtain rfl : o = .refuse := by
      cases o with
      | truncate => exact absurd rfl ho
      | refuse => rfl
    rw [checkRange_refuse (by simpa using hfalse), checkRange_refuse (by simpa [← hfits] using hfalse)]
    rfl

/-! ### The word as a number -/

/-- A line whose operand stage gives an instruction with value `v` encodes to its word where `v` fits or nothing is checked, and
raises `ParseError` else (R115, U1). -/
theorem encodesTo_of_operandStage {v n : Int} (h : operandStage ds la line = .ok a)
    (hfits : a.fits index = decide (-(2 ^ 15) ≤ v ∧ v ≤ 2 ^ 15 - 1)) (hn : ((encode (a.toInstr index)).toNat : Int) = n) :
    EncodesTo o line ds la index v n := by
  refine ⟨fun hv => ⟨_, ?_, hn⟩, fun ho hv => ?_⟩
  · have hok : o = .truncate ∨ a.fits index = true := hv.imp_right fun hv => hfits.trans (decide_eq_true hv)
    rw [encodeLine_of_operandStage h, checkRange_eq_ok hok]
    rfl
  · rw [ho, encodeLine_of_operandStage h, checkRange_refuse (hfits.trans (decide_eq_false hv))]
    rfl

/-- The packed word of `j` (R111). -/
theorem toNat_encode_j (target index : Nat) :
    (encode ((AsmInstr.j target).toInstr index)).toNat = 2 * 2 ^ 26 + target % 2 ^ 26 := by
  rw [AsmInstr.toInstr, encode, toNat_packJ, BitVec.toNat_ofNat]
  rfl

/-- A line of an R-format mnemonic with the operands of the instruction (R105, R106). -/
theorem encodesTo_r {op : ROp} {rd rs rt : RegIdx} (h : operandStage ds la line = .ok (.r op rd rs rt)) :
    EncodesTo o line ds la index 0 (rs.toNat * 2 ^ 21 + rt.toNat * 2 ^ 16 + rd.toNat * 2 ^ 11 + op.funct.toNat) := by
  refine encodesTo_of_operandStage h rfl ?_
  rw [packedRFormatWord op rd rs rt index]
  push_cast
  ring

/-- A line of `addi`, `lw` or `sw` with the operands of the instruction (R113, R114). -/
theorem encodesTo_i {op : IOp} {rt rs : RegIdx} {v : Int} (h : operandStage ds la line = .ok (.i op rt rs v)) :
    EncodesTo o line ds la index v (op.opcode.toNat * 2 ^ 26 + rs.toNat * 2 ^ 21 + rt.toNat * 2 ^ 16 + v % 2 ^ 16) :=
  encodesTo_of_operandStage h rfl (packedIFormatWord op rt rs v index)

/-- A branch line with the operands of the instruction (R107, R108). -/
theorem encodesTo_b {op : BOp} {rt rs : RegIdx} {target : Nat} (h : operandStage ds la line = .ok (.b op rt rs target)) :
    EncodesTo o line ds la index ((target : Int) - (index + 1))
      (op.opcode.toNat * 2 ^ 26 + rs.toNat * 2 ^ 21 + rt.toNat * 2 ^ 16 + ((target : Int) - (index + 1)) % 2 ^ 16) :=
  encodesTo_of_operandStage h rfl (packedBranchWord op rt rs target index)

/-- A line of `j` with its label (R110, R111). -/
theorem encodesTo_j {target : Nat} (h : operandStage ds la line = .ok (.j target)) :
    EncodesTo o line ds la index 0 (2 * 2 ^ 26 + target % 2 ^ 26) := by
  refine encodesTo_of_operandStage h rfl ?_
  rw [toNat_encode_j]
  push_cast
  rfl

/-! ### Known operands -/

/-- The operand stage of a line with known mnemonic and operands (R117). -/
theorem operandStage_of_operands {m : Mnemonic} {ops : List Text} (hm : findMnemonic (lineMnemonic line) = some m)
    (hops : lineOperands line = ops) (h : operandsOf ds la ops m = .ok a) : operandStage ds la line = .ok a := by
  rw [operandStage_of_some hm, hops, h]

/-- The operand stage of a line of `addi`, `lw` or `sw` with two operands (R112, R113). -/
theorem operandStage_of_pair {op : IOp} {op0 op1 : Text} {rt : RegIdx} {k : OperandKind}
    (hm : findMnemonic (lineMnemonic line) = some (.i op)) (hops : lineOperands line = [op0, op1])
    (h0 : parseRegister op0 = some rt) (h1 : pairForm ds op1 = .ok k) :
    operandStage ds la line = .ok (.i op rt k.base k.value) := by
  refine operandStage_of_operands hm hops ?_
  rw [operandsOf, iOperands_of_pair op h0, h1]
  rfl

theorem hasChar_eq_false {c : Char} {t : Text} (h : c ∉ t) : hasChar c t = false := by
  simpa [hasChar] using h

/-! ### Cutting a line -/

/-- A word without white space, with white space or nothing behind, keeps its front end when the line is stripped. -/
theorem strip_word_append {name rest : Text} (hne : name ≠ []) (hname : ∀ c ∈ name, isSpace c = false) :
    strip (name ++ rest) = name ++ rest.rdropWhile isSpace := by
  have hfront : (name ++ rest).dropWhile isSpace = name ++ rest := by
    obtain ⟨c, t, rfl⟩ := List.exists_cons_of_ne_nil hne
    exact List.dropWhile_cons_of_neg (by simp [hname c])
  obtain ⟨t, c, rfl⟩ := (List.eq_nil_or_concat' name).resolve_left hne
  rw [strip_eq, hfront, List.append_assoc, List.singleton_append, rdropWhile_stop _ _ (hname c (by simp))]
  simp

/-- White space taken off the right end leaves nothing, or a text with the same front. -/
theorem head_rdropWhile {t : Text} {c : Char} (h : c ∈ (t.rdropWhile isSpace).head?) : c ∈ t.head? := by
  obtain ⟨u, hu⟩ := List.rdropWhile_prefix isSpace (l := t)
  rw [← hu, List.head?_append, Option.mem_def.1 h]
  rfl

/-- A line cut at the end of its first word: the word is the mnemonic, and the rest, stripped, the operand text (R101). -/
theorem line_cut {before' name rest : Text} (hb : AllSpace before') (hne : name ≠ [])
    (hname : ∀ c ∈ name, isSpace c = false) (hrest : ∀ c ∈ rest.head?, isSpace c = true) :
    lineMnemonic (before' ++ name ++ rest) = name ∧ operandText (before' ++ name ++ rest) = strip rest := by
  have hstrip : strip (before' ++ name ++ rest) = name ++ rest.rdropWhile isSpace := by
    rw [List.append_assoc, strip_space_append hb, strip_word_append hne hname]
  have hword : ∀ c ∈ name, (!isSpace c) = true := fun c hc => by rw [hname c hc]; rfl
  have hstop : (rest.rdropWhile isSpace).takeWhile (fun c => !isSpace c) = [] ∧
      (rest.rdropWhile isSpace).dropWhile (fun c => !isSpace c) = rest.rdropWhile isSpace := by
    cases h : rest.rdropWhile isSpace with
    | nil => exact ⟨rfl, rfl⟩
    | cons c t =>
      have hc : isSpace c = true := hrest c (head_rdropWhile (by rw [h]; rfl))
      simp [hc]
  constructor
  · rw [lineMnemonic, hstrip, List.takeWhile_append_of_pos hword, hstop.1, List.append_nil]
  · rw [operandText, hstrip, List.dropWhile_append_of_pos hword, hstop.2, strip_rdropWhile]

theorem joinCommas_cons_cons (p q : Text) (qs : List Text) :
    joinCommas (p :: q :: qs) = p ++ ',' :: joinCommas (q :: qs) := rfl

/-- Pieces without a comma, joined by commas, are the pieces between the commas (R101). -/
theorem splitCommas_joinCommas {pieces : List Text} (hne : pieces ≠ []) (h : ∀ p ∈ pieces, ',' ∉ p) :
    splitCommas (joinCommas pieces) = pieces := by
  induction pieces with
  | nil => exact absurd rfl hne
  | cons p rest ih =>
    have hp : ',' ∉ p := h p (by simp)
    cases rest with
    | nil =>
      rw [joinCommas]
      simpa using splitCommas_append hp (t := []) rfl
    | cons q qs =>
      have hrest := ih (List.cons_ne_nil q qs) fun r hr => h r (by simp [hr])
      have hcomma : splitCommas (',' :: joinCommas (q :: qs)) = [] :: q :: qs := by
        rw [splitCommas, if_pos rfl, hrest]
      rw [joinCommas_cons_cons, splitCommas_append hp hcomma, List.append_nil]

/-- The operands of a line are the stripped pieces of its operand text; none where that is empty (R101). -/
theorem lineOperands_of_operandText {rest : Text} (h : operandText line = strip rest) :
    (strip rest ≠ [] → lineOperands line = (splitCommas rest).map strip) ∧
      (strip rest = [] → lineOperands line = []) := by
  rw [lineOperands, h]
  constructor
  · intro hne
    rw [if_neg (by simpa using hne), splitCommas_strip]
  · intro he
    rw [he]
    rfl

/-- A line of a word and comma-separated pieces after white space (R101). -/
theorem line_of_pieces {before' name gap : Text} {pieces : List Text} (hb : AllSpace before')
    (hne : name ≠ []) (hname : ∀ c ∈ name, isSpace c = false) (hgap : gap ≠ []) (hspace : AllSpace gap)
    (hpieces : ∀ p ∈ pieces, ',' ∉ p) :
    lineMnemonic (before' ++ name ++ gap ++ joinCommas pieces) = name ∧
      (strip (joinCommas pieces) ≠ [] → lineOperands (before' ++ name ++ gap ++ joinCommas pieces) = pieces.map strip) ∧
      (strip (joinCommas pieces) = [] → lineOperands (before' ++ name ++ gap ++ joinCommas pieces) = []) := by
  have hfollow : ∀ c ∈ (gap ++ joinCommas pieces).head?, isSpace c = true := by
    obtain ⟨c, t, rfl⟩ := List.exists_cons_of_ne_nil hgap
    simpa using hspace c (by simp)
  obtain ⟨hmnemonic, htext⟩ := line_cut hb hne hname hfollow
  rw [strip_space_append hspace, ← List.append_assoc] at htext
  rw [← List.append_assoc] at hmnemonic
  obtain ⟨hsome, hnone⟩ := lineOperands_of_operandText htext
  refine ⟨hmnemonic, fun h => ?_, hnone⟩
  have hne' : pieces ≠ [] := by
    rintro rfl
    exact h rfl
  rw [hsome h, splitCommas_joinCommas hne' hpieces]

/-- A line of one word has no operands (R101). -/
theorem line_of_word {before' name : Text} (hb : AllSpace before') (hne : name ≠ [])
    (hname : ∀ c ∈ name, isSpace c = false) :
    lineMnemonic (before' ++ name) = name ∧ lineOperands (before' ++ name) = [] := by
  obtain ⟨hmnemonic, htext⟩ := line_cut (rest := []) hb hne hname nofun
  rw [List.append_nil] at hmnemonic htext
  exact ⟨hmnemonic, (lineOperands_of_operandText htext).2 rfl⟩

end Sys2Proof.Machine
end

section
/-! The statements on the encoder of the family `other`. -/

namespace Sys2Proof.Machine

/-- Settles O46: the word is that of a packed instruction, and the packed one decodes again. -/
theorem encoderEmitsWellFormedWords : Obligations.EncoderEmitsWellFormedWords := by
  intro o line ds la index w h
  obtain ⟨a, hstage, rfl⟩ := encodeLine_eq_ok h
  obtain ⟨hwf, hmnemonic⟩ := toInstr_wf a index
  exact ⟨a.toInstr index, decode_encode _, hwf, by rw [hmnemonic, operandStage_mnemonic hstage]⟩

/-- Settles O47: a mnemonic outside the table is the first check, and no later one raises this error. -/
theorem unknownMnemonicIsUnsupported : Obligations.UnknownMnemonicIsUnsupported := by
  intro o line ds la index name
  rw [← findMnemonic_eq_none_iff]
  cases hm : findMnemonic (lineMnemonic line) with
  | some m => exact ⟨fun h => absurd h (MnemonicAccepted.encodeLine hm name), nofun⟩
  | none =>
    have herror : encodeLine o line ds la index = .error (.unsupportedInstruction (lineMnemonic line)) := by
      rw [encodeLine, operandStage_of_none hm]
      rfl
    rw [herror]
    simp [eq_comm]

/-- Settles O48: the register names are distinct and no numerals, so the two readings of a token do not meet. -/
theorem registerTokens : Obligations.RegisterTokens := by
  intro tok r
  constructor
  · intro h
    cases tok with
    | nil => cases h
    | cons c t =>
      by_cases hc : c = '$'
      · subst hc
        exact (parseRegister_dollar.1 h).imp (fun hname => ⟨t, hname, rfl⟩) fun hdigits => ⟨t, rfl, hdigits⟩
      · rw [parseRegister, if_neg hc] at h
        cases h
  · rintro (⟨name, hname, rfl⟩ | ⟨digits, rfl, hdigits⟩)
    · exact parseRegister_dollar.2 (.inl hname)
    · exact parseRegister_dollar.2 (.inr hdigits)

/-- Settles O49, by the equations of the two single-token forms. -/
theorem dataLabelShorthand : Obligations.DataLabelShorthand := by
  intro ds op reg tok rt hreg hp
  rw [iOperands_of_pair op hreg]
  refine ⟨fun v hl => ?_, fun rs hl hr => ?_, fun hl hr => ?_⟩
  · rw [pairForm_of_dataLabel hp hl]
    rfl
  · rw [pairForm_of_token hp hl, regOperand_of_some hr]
    rfl
  · rw [pairForm_of_token hp hl, regOperand_of_none hr]
    rfl

/-- Settles O50: registers do not depend on the labels, and a label operand gives the same error or the same distance. -/
theorem branchDependsOnDistanceOnly : Obligations.BranchDependsOnDistanceOnly := by
  intro o line ds la la' i i' op hm hdist
  rw [encodeLine_eq_bind, encodeLine_eq_bind, operandStage_of_some hm, operandStage_of_some hm, operandsOf, operandsOf]
  match lineOperands line with
  | [op0, op1, op2] =>
    rw [bOperands, bOperands]
    cases regOperand op0 with
    | error e => rfl
    | ok rt =>
      cases regOperand op1 with
      | error e => rfl
      | ok rs =>
        rcases labelOperand_of_sameDistances hdist op2 with ⟨e, h, h'⟩ | ⟨n, n', h, h', hoffset⟩
        · rw [h, h']
          rfl
        · rw [h, h']
          exact packed_branch_of_distance hoffset
  | [] | [_] | [_, _] | _ :: _ :: _ :: _ :: _ => rfl

/-- Settles O58, from the J-format layout. -/
theorem packedJumpWord : Obligations.PackedJumpWord := toNat_encode_j

/-- Settles O60: the cut of a line, and for each operand form the abstract instruction of its operand stage. -/
theorem operandTokensFillTheirFields : Obligations.OperandTokensFillTheirFields := by
  refine ⟨fun before' name gap pieces hb hne hname hgap hspace hpieces => ?_, fun o line ds la index op0 op1 op2 => ?_⟩
  · obtain ⟨hmnemonic, hsome, hnone⟩ := line_of_pieces hb hne hname hgap hspace hpieces
    exact ⟨hmnemonic, hsome, hnone, line_of_word hb hne hname⟩
  refine ⟨fun op rd rs rt hm hops h0 h1 h2 => ?_, fun op rt rs target hm hops h0 h1 h2 => ?_,
    fun op rt rs v hm hops h0 h1 h2 => ?_, fun op rt rs v off base tail hm hops hoff hbase htail h0 hv hr => ?_,
    fun op rt v hm hops hp h0 hl => ?_, fun op rt rs hm hops hp h0 hl hr => ?_, fun target hm hops hl => ?_⟩
  · exact encodesTo_r (operandStage_of_operands hm hops (rOperands_of_registers op h0 h1 h2))
  · exact encodesTo_b (operandStage_of_operands hm hops (bOperands_of_label op h0 h1 h2))
  · exact encodesTo_i (operandStage_of_operands (la := la) hm hops (iOperands_of_immediate (ds := ds) op h0 h1 h2))
  · exact encodesTo_i (operandStage_of_pair hm hops h0 (pairForm_of_baseOffset hoff hbase htail hv hr))
  · have hk := pairForm_of_dataLabel (hasChar_eq_false hp) hl
    have h := encodesTo_i (o := o) (index := index) (operandStage_of_pair (la := la) hm hops h0 hk)
    simpa only [OperandKind.base, OperandKind.value, BitVec.toNat_ofNat, Nat.zero_mod, Nat.cast_zero, zero_mul, add_zero]
      using h
  · have hk : pairForm ds op1 = .ok (.baseOffset 0 rs) := by
      rw [pairForm_of_token (hasChar_eq_false hp) hl, regOperand_of_some hr]
      rfl
    have h := encodesTo_i (o := o) (index := index) (operandStage_of_pair (la := la) hm hops h0 hk)
    simpa only [OperandKind.base, OperandKind.value, Int.zero_emod, add_zero] using h
  · exact encodesTo_j (operandStage_of_operands (ds := ds) hm hops (jOperands_of_label hl))

end Sys2Proof.Machine
end

section
/-! SUPPORT. The load sequence (spec/70_reset_and_hazards.md R183): which error each of its stages raises (spec/60_exceptions.md
R181), and what the parameter `IMM_OVERFLOW` changes of it (spec/93_implementation_defined.md U1). -/

namespace Sys2Proof.Machine

variable {p : Params} {lines : List Text} {ds : List (Text × Word)} {s t : State} {k : Scan} {e : LoadError}

/-! ### Resolution -/

/-- The errors of resolution (R83, R96, R97). -/
def ResolveError (e : LoadError) : Prop := (∃ line, e = .parseLine line) ∨ e = .missingText ∨ e = .programTooLarge

theorem ResolveError.kind (h : ResolveError e) : e.kind = .parseError := by
  rcases h with ⟨line, rfl⟩ | rfl | rfl <;> rfl

/-- A line that fails raises `ParseError` with its text (R97). -/
theorem scanLine_error {line : Text} (h : scanLine line k = .error e) : e = .parseLine line := by
  unfold scanLine scanStripped at h
  split at h
  · cases h
  split at h
  · cases h
  split at h
  · cases h
  split at h
  · cases h; rfl
  · unfold scanData at h
    split at h
    · cases h; rfl
    split at h
    · cases h; rfl
    split at h
    · cases h; rfl
    split at h
    · split at h <;> cases h
      rfl
    · cases h; rfl
  · unfold scanText at h
    split at h
    · cases h
    split at h
    · cases h; rfl
    split at h <;> cases h
    rfl

theorem scanLines_error (h : scanLines lines k = .error e) : ∃ line, e = .parseLine line := by
  induction lines generalizing k with
  | nil => cases h
  | cons line rest ih =>
    rw [scanLines] at h
    cases hl : scanLine line k with
    | error e' =>
      rw [hl] at h
      cases h
      exact ⟨line, scanLine_error hl⟩
    | ok k' => exact ih (by simpa only [hl] using h)

theorem resolve_error (h : resolve p lines = .error e) : ResolveError e := by
  unfold resolve at h
  split at h
  case h_1 e' hs =>
    cases h
    exact .inl (scanLines_error hs)
  case h_2 k hs =>
    split at h
    · cases h
      exact .inr (.inl rfl)
    split at h <;> cases h
    exact .inr (.inr rfl)

/-! ### Encoding -/

/-- The four errors of an instruction line (R161, R181). -/
def EncodingKind (c : ErrorKind) : Prop :=
  c = .unsupportedInstruction ∨ c = .parseError ∨ c = .invalidRegister ∨ c = .unresolvedLabel

theorem EncodeError.encodingKind (e : EncodeError) : EncodingKind e.kind := by
  cases e with
  | parseError => exact .inr (.inl rfl)
  | invalidRegister token => exact .inr (.inr (.inl rfl))
  | unresolvedLabel name => exact .inr (.inr (.inr rfl))
  | unsupportedInstruction mnemonic => exact .inl rfl

/-- The encoding phase aborts with the error of a line (R118). -/
theorem encodeProgram_error {o : ImmOverflow} (h : encodeProgram o k = .error e) : EncodingKind e.kind := by
  obtain ⟨i, line, e', rfl, -⟩ := encodeFrom_eq_error_iff.1 h
  exact e'.encodingKind

/-- What encodes under `refuse` encodes to the same word under `truncate` (U1). -/
theorem encodeLine_truncate_of_refuse {line : Text} {la : List (Text × Nat)} {index : Nat} {w : Word}
    (h : encodeLine .refuse line ds la index = .ok w) : encodeLine .truncate line ds la index = .ok w := by
  obtain ⟨a, hstage, rfl⟩ := encodeLine_eq_ok h
  rw [encodeLine_of_operandStage hstage, checkRange_eq_ok (.inl rfl)]
  rfl

theorem encodeProgram_truncate_of_refuse {program : List Word} (h : encodeProgram .refuse k = .ok program) :
    encodeProgram .truncate k = .ok program := by
  obtain ⟨hlen, hwords⟩ := encodeFrom_eq_ok_iff.1 h
  exact encodeFrom_eq_ok_iff.2 ⟨hlen, fun i line w hl hw => encodeLine_truncate_of_refuse (hwords i line w hl hw)⟩

/-! ### Seeding -/

/-- A seeding that stops does so at its first value, which is out of bounds, or writes that and stops later (R47, R48). -/
theorem seed_cons_eq_error {d : Text × Word} :
    seed (d :: ds) s = .error e ↔
      (¬ s.inBounds d.2.toInt ∧ e = .seeding d.2.toInt) ∨
        (s.inBounds d.2.toInt ∧ seed ds { s with dmem := Memory.write s.dmem d.2.toInt.toNat d.2 } = .error e) := by
  rw [seed]
  cases hw : s.memWrite d.2.toInt d.2 with
  | none => simp [memWrite_eq_none.1 hw, eq_comm]
  | some s1 =>
    obtain ⟨hb, rfl⟩ := memWrite_eq_some.1 hw
    exact ⟨fun h => .inr ⟨hb, h⟩, fun h => (h.resolve_left fun hout => hout.1 hb).2⟩

/-- Seeding stops exactly at the first value that is out of bounds, with that value as the address (R48). -/
theorem seed_eq_error_iff :
    seed ds s = .error e ↔
      ∃ before' name v rest, ds = before' ++ (name, v) :: rest ∧ e = .seeding v.toInt ∧ ¬ s.inBounds v.toInt ∧
        ∀ d ∈ before', s.inBounds d.2.toInt := by
  induction ds generalizing s with
  | nil => simp [seed]
  | cons d ds ih =>
    rw [seed_cons_eq_error, ih]
    constructor
    · rintro (⟨hb, rfl⟩ | ⟨hb, before', name, v, rest, rfl, rfl, hout, hin⟩)
      · exact ⟨[], d.1, d.2, ds, rfl, rfl, hb, nofun⟩
      · exact ⟨d :: before', name, v, rest, rfl, rfl, hout, List.forall_mem_cons.2 ⟨hb, hin⟩⟩
    · rintro ⟨before', name, v, rest, hds, rfl, hout, hin⟩
      cases before' with
      | nil =>
        cases hds
        exact .inl ⟨hout, rfl⟩
      | cons d' before' =>
        cases hds
        obtain ⟨hb, hin⟩ := List.forall_mem_cons.1 hin
        exact .inr ⟨hb, before', name, v, rest, rfl, rfl, hout, hin⟩

/-- Seeding depends on the parameters through `MEM_WORDS` only (R42, R47). -/
theorem seed_setParams (h : seed ds s = .ok t) {q : Params} (hq : q.memWords = s.params.memWords) :
    seed ds { s with params := q } = .ok { t with params := q } := by
  induction ds generalizing s with
  | nil => cases h; rfl
  | cons d ds ih =>
    obtain ⟨hb, hrest⟩ := seed_cons_eq_ok.1 h
    refine seed_cons_eq_ok.2 ⟨?_, ih hrest hq⟩
    simpa only [State.inBounds, hq] using hb

/-! ### The whole load -/

/-- A load fails with the error of one of its stages (R183). -/
theorem load_error (h : load p lines = .error e) :
    resolve p lines = .error e ∨ (∃ k, encodeProgram p.immOverflow k = .error e) ∨ ∃ ds s, seed ds s = .error e := by
  unfold load at h
  cases hr : resolve p lines with
  | error e' =>
    simp only [hr] at h
    cases h
    exact .inl rfl
  | ok k =>
    simp only [hr] at h
    cases he : encodeProgram p.immOverflow k with
    | error e' =>
      simp only [he] at h
      cases h
      exact .inr (.inl ⟨k, he⟩)
    | ok program =>
      simp only [he] at h
      exact .inr (.inr ⟨_, _, h⟩)

/-- A load is made of its stages (R183). -/
theorem load_of_stages {program : List Word} (hr : resolve p lines = .ok k)
    (he : encodeProgram p.immOverflow k = .ok program) :
    load p lines = seed k.dataSegment (State.created p k.dataSegment k.labelAddress k.textSegment program) := by
  simp only [load, hr, he]

end Sys2Proof.Machine
end

section
/-! The statements on the load of the family `other`. -/

namespace Sys2Proof.Machine

/-- Settles O52: resolution and seeding do not depend on `IMM_OVERFLOW`, and what encodes under `refuse` encodes under
`truncate`. -/
theorem refuseIsConservative : Obligations.RefuseIsConservative := by
  intro p lines s h
  obtain ⟨k, program, hr, he, hseed⟩ := load_eq_ok h
  have hr' : resolve { p with immOverflow := .truncate } lines = .ok k := hr
  rw [load_of_stages hr' (encodeProgram_truncate_of_refuse he)]
  exact seed_setParams hseed rfl

/-- Settles O55: a seeded state differs from the created one in the data memory only, and there in the data values only. -/
theorem loadedStateIsTheResetState : Obligations.LoadedStateIsTheResetState := by
  intro p lines s h
  obtain ⟨k, program, hr, he, hseed⟩ := load_eq_ok h
  obtain ⟨hfrom, -⟩ := seed_eq_ok hseed
  have heq : s = { State.created p k.dataSegment k.labelAddress k.textSegment program with dmem := s.dmem } := hfrom
  have hcells : ∀ a : Nat, (∀ e ∈ k.dataSegment, e.2.toInt ≠ (a : Int)) → Memory.read s.dmem a = 0#32 :=
    fun a ha => seed_read_of_not_value (wf_created ..) hseed ha
  rw [heq]
  exact ⟨rfl, rfl, rfl, hcells, k, hr, he, rfl, rfl, rfl⟩

/-- Settles O56: the address of the error is the value at which seeding stops. -/
theorem seedingOutOfBoundsStopsTheLoad : Obligations.SeedingOutOfBoundsStopsTheLoad := by
  intro ds s addr
  rw [seed_eq_error_iff]
  constructor
  · rintro ⟨before', name, v, rest, hds, haddr, hout, hin⟩
    cases haddr
    exact ⟨before', name, v, rest, hds, rfl, hout, hin⟩
  · rintro ⟨before', name, v, rest, hds, rfl, hout, hin⟩
    exact ⟨before', name, v, rest, hds, rfl, hout, hin⟩

/-- Settles O57: the errors of each stage, of a load as one of its stages, and of a step that ends in `FAULT`. -/
theorem loadErrorsByPhase : Obligations.LoadErrorsByPhase := by
  intro p lines k s e
  have seeding : ∀ {ds s}, seed ds s = .error e → e.kind = .memoryOutOfBounds := by
    intro ds s h
    obtain ⟨_, _, _, _, -, rfl, -⟩ := seed_eq_error_iff.1 h
    rfl
  refine ⟨fun h => (resolve_error h).kind, encodeProgram_error, seeding, fun h hkind => ?_,
    fun t cause index info h ht => (step_eq_raise_of_fault h ht).1⟩
  rcases load_error h with hr | ⟨k, he⟩ | ⟨ds, s, hs⟩
  · cases hkind.symm.trans (resolve_error hr).kind
  · rcases encodeProgram_error he with hk | hk | hk | hk <;> cases hkind.symm.trans hk
  · cases hkind.symm.trans (seeding hs)

end Sys2Proof.Machine
end
